-- ==== Sys2Proof/Word.lean ====
section
/-! DEFINITION. The word types of the block: bytes, the 16-bit checksum register, 32-bit bus words and the 64-bit
quantities that two registers hold together (spec/00_scope.md R10, spec/20_memory.md R207). -/

namespace Sys2Proof

/-- An octet (R10). -/
abbrev Byte := BitVec 8

/-- A 16-bit register value: the checksum and the lengths (R106, R111). -/
abbrev Half := BitVec 16

/-- A 32-bit bus word (R102, R207). -/
abbrev Word := BitVec 32

/-- A 64-bit quantity held in a `_LO` and a `_HI` register (R207). -/
abbrev DWord := BitVec 64

end Sys2Proof
end

