-- ==== Sys2Proof/Config.lean ====
section
/-! DEFINITION. What an implementation fixes: the open parameters BLOCK_BASE and BUF_BYTES, the constants of
spec/00_scope.md R9, and the one free value of the spec, the contents of RXBUF after reset. -/

namespace Sys2Proof

/-- The open parameters of R9. They are constants of one block, not state (R127): State carries them in one field that no
step changes, so every statement about all states is about every value of them. Log 1. -/
structure Params where
  /-- Bus address of register offset 0x000 (R200). -/
  blockBase : Nat
  /-- Capacity of RXBUF in bytes (R123), what CFG reads as (R121). -/
  bufBytes : Nat
  deriving DecidableEq, Repr

/-- The parameters of the block after `State.reset`: BUF_BYTES has the spec's default 256 (R9, D5); BLOCK_BASE is the
platform's, and 0 here. DESIGN CHOICE for BLOCK_BASE, unsafe, log 1. -/
def Config.defaultParams : Params := { blockBase := 0, bufBytes := 256 }

/-- CRC_POLY (R9). -/
def Config.crcPoly : Half := 0x1021

/-- CRC_INIT (R9). -/
def Config.crcInit : Half := 0xFFFF

/-- START_MARKER (R9). -/
def Config.startMarker : Byte := 0x2B

/-- READ_LEN (R9). -/
def Config.readLen : Byte := 0x04

/-- HDR_BYTES (R9). -/
def Config.hdrBytes : Nat := 6

/-- MIN_RESP (R9, spec/90_conflicts.md C1). -/
def Config.minResp : Nat := 8

/-- FLT_IN_WIDTH (R9). -/
def Config.fltInWidth : Nat := 64

/-- The draw of RXBUF[i] made by the k-th reset (R702: "Each byte RXBUF[i] holds an arbitrary value until the host writes
it"). A free value: it has no body, so no proof can see what it is. Log 2. -/
opaque Config.rxDraw : Nat → Nat → Byte

end Sys2Proof
end

