-- ==== Sys2Proof/Syntax.lean ====
section
/-! DEFINITION. The commands of spec/opcode_table.json, the named places of the register window (spec/10_state.md R102),
the host's bus accesses (spec/20_memory.md R201 to R205) and the host's listing lines (spec/30_encoding.md R307). -/

namespace Sys2Proof

/-- The seven commands of R303. No command carries an operand field (R304). -/
inductive Instr where
  | nop
  | cksInit
  | cksByte
  | cksBuf
  | frmEnc
  | frmDec
  | fltDec
  deriving DecidableEq, Repr

/-- The named registers of R102, in the order of their offsets. -/
inductive Reg where
  | cmd | status | erracc | crc | din | frmCmd | frmRegid | txlen | rxlen | payloadLen | rawLo | rawHi | rxCrc
  | fltSpec | fltInLo | fltInHi | fltRes | fltSigLo | fltSigHi | fltExpLo | fltExpHi | fltF64Lo | fltF64Hi | cfg
  deriving DecidableEq, Repr

/-- What stands at an aligned offset of the window (R102). -/
inductive Location where
  /-- A named register. -/
  | reg (r : Reg)
  /-- TXBUF[i] (R122). -/
  | txbuf (i : Fin 9)
  /-- RXBUF[i] (R123). -/
  | rxbuf (i : Nat)
  /-- A reserved offset (R124). -/
  | reserved (off : Nat)
  deriving DecidableEq, Repr

/-- The width of a bus access; R205 admits 32 bits only. -/
inductive Width where
  | w8 | w16 | w32 | w64
  deriving DecidableEq, Repr

/-- A read, or a write of a word. -/
inductive Direction where
  | read
  | write (data : Word)
  deriving DecidableEq, Repr

/-- One bus access of the host, at a byte address of the host's address space (R200). Log 16. -/
structure Access where
  width : Width
  addr : Nat
  dir : Direction
  deriving DecidableEq, Repr

/-- What the outside does to the block: a bus access (R213), or the reset input asserted between accesses (R700). -/
inductive Event where
  | access (a : Access)
  | reset
  deriving DecidableEq, Repr

/-- One line of the host's listing (R307). -/
inductive HostLine where
  /-- `wr NAME, value`. -/
  | wr (l : Location) (value : Word)
  /-- `rd NAME`. -/
  | rd (l : Location)
  /-- `cmd MNEMONIC`. -/
  | cmd (i : Instr)
  deriving DecidableEq, Repr

end Sys2Proof
end

