-- ==== Sys2Proof/WellFormed.lean ====
section
/-! DEFINITION. Well-formedness of what the model takes in: commands, parameters and bus accesses. A command has no
operand field (spec/30_encoding.md R304), so every `Instr` is well formed; an ill-formed command WORD is refused by the
decoder. -/

namespace Sys2Proof

/-- Every command is well formed: none has a field that could be out of range (R304). -/
def Instr.wf : Instr → Bool
  | .nop | .cksInit | .cksByte | .cksBuf | .frmEnc | .frmDec | .fltDec => true

/-- The ranges R9 and R200 give the parameters: 8 ≤ BUF_BYTES ≤ 65535, BLOCK_BASE aligned to 4. -/
def Params.wf (p : Params) : Bool :=
  p.blockBase % 4 == 0 && decide (8 ≤ p.bufBytes) && decide (p.bufBytes ≤ 65535)

/-- Bytes in the window (R129, R200). -/
def Params.windowSize (p : Params) : Nat := 0x400 + 4 * p.bufBytes

/-- The accesses R205 does not refuse: 32 bits wide, inside the window, at an offset that is a multiple of 4. -/
def Access.wf (p : Params) (a : Access) : Bool :=
  a.width == .w32 && decide (p.blockBase ≤ a.addr) && decide (a.addr < p.blockBase + p.windowSize) &&
    (a.addr - p.blockBase) % 4 == 0

/-- A place of the window exists: an RXBUF index is below BUF_BYTES (R123), a reserved offset lies in the two reserved
ranges and is a multiple of 4 (R124). -/
def Location.wf (p : Params) : Location → Bool
  | .reg _ => true
  | .txbuf _ => true
  | .rxbuf i => decide (i < p.bufBytes)
  | .reserved off =>
    off % 4 == 0 && ((decide (0x060 ≤ off) && decide (off < 0x200)) || (decide (0x224 ≤ off) && decide (off < 0x400)))

end Sys2Proof
end

