-- ==== Sys2Proof/Decode.lean ====
section
/-! DEFINITION. The command word (spec/30_encoding.md R300): the decoder of R309, total on every 32-bit word and refusing
by name, and the encoder, both from the opcode map of R303. -/

namespace Sys2Proof

/-- Why a word is no command (R305). -/
inductive DecodeError where
  /-- RSV = w[31:8] is not 0 (R302). -/
  | reservedBits
  /-- RSV is 0 and OP is not assigned (R301, R305). -/
  | reservedOpcode
  deriving DecidableEq, Repr

/-- OP = w[7:0] (R300). -/
def opField (w : Word) : Byte := w.extractLsb' 0 8

/-- RSV = w[31:8] (R300). -/
def rsvField (w : Word) : BitVec 24 := w.extractLsb' 8 24

/-- The operation an opcode selects (R303). -/
def decodeOp (op : Byte) : Option Instr :=
  if op = 0x00 then some .nop
  else if op = 0x01 then some .cksInit
  else if op = 0x02 then some .cksByte
  else if op = 0x03 then some .cksBuf
  else if op = 0x10 then some .frmEnc
  else if op = 0x11 then some .frmDec
  else if op = 0x20 then some .fltDec
  else none

/-- The decoder (R309): a set RSV bit makes the word illegal whatever OP is (R302). -/
def decode (w : Word) : Except DecodeError Instr :=
  if rsvField w ≠ 0 then .error .reservedBits
  else match decodeOp (opField w) with
    | some i => .ok i
    | none => .error .reservedOpcode

/-- The opcode of a command (R303). -/
def opcode : Instr → Byte
  | .nop => 0x00
  | .cksInit => 0x01
  | .cksByte => 0x02
  | .cksBuf => 0x03
  | .frmEnc => 0x10
  | .frmDec => 0x11
  | .fltDec => 0x20

/-- The command word of a command: `zext_32(OP)` with RSV = 0 (R303). -/
def encode (i : Instr) : Word := (opcode i).zeroExtend 32

/-- The value of an instruction whose low `nbits` bits are those of `w`, every bit above them 0. -/
def tableValue (nbits w : Nat) : Nat := w % 2 ^ nbits

/-- The command the decoder reads from the opcode table's numbering. A command is one whole 32-bit word, so the bits are
the word; a value that needs more than 32 bits is no command word (R300). Log 12. -/
def decodeTableWord (nbits w : Nat) : Option Instr :=
  if tableValue nbits w < 2 ^ 32 then
    match decode (BitVec.ofNat 32 (tableValue nbits w)) with
    | .ok i => some i
    | .error _ => none
  else none

end Sys2Proof
end

