-- ==== Sys2Proof/Machine/State.lean ====
section
/-! DEFINITION. The state of the block: the registers of spec/10_state.md R102, one field for each field the map gives a
register, the two buffers (R122, R123), and the model's own record of the host (its coming events and what its reads
returned). Reserved bits and CMD hold no state (R103, R124) and have no field. -/

namespace Sys2Proof.Machine

/-- FLT_RES.CLASS (R117). -/
inductive FltClass where
  | finite | infinity | nan | none
  deriving DecidableEq, Repr

/-- The error causes of R601. -/
inductive BlockError where
  | frameTooShort | checksumMismatch | valueOutOfRange | invalidSpec | illegalCommand | lengthOutOfRange
  deriving DecidableEq, Repr

/-- The bytes of RXBUF that have been written since the last reset, as (index, byte) pairs in rising order of index. An
index that is not listed has not been written: its byte is the draw of R702 (`rxByte` in Machine/Ops.lean). Log 3. -/
abbrev Memory := List Host.Cell

/-- The one form of a buffer of `n` bytes: indexes strictly rising and all below `n`. No listed entry can equal what an
unlisted index holds, since an unlisted index holds no written byte. -/
abbrev Memory.wf (n : Nat) (m : Memory) : Prop :=
  (m.map Prod.fst).Pairwise (· < ·) ∧ ∀ c ∈ m, c.1 < n

/-- The block never faults (R600: "The block never traps, halts or faults"; R310), so there is no fault to name: no
definition raises one. Safe: nothing is claimed of a fault. Log 13. -/
inductive Fault where
  deriving DecidableEq, Repr

/-- The steps the model does not give. Each is safe: the model stops where a chip might go on. -/
inductive Refusal where
  /-- A command with no meaning in the model, by its mnemonic. Raised by nothing: every command has its meaning. Safe. -/
  | notModelled (mnemonic : String)
  /-- A host access that is not 32 bits wide (R205). Raised by `accessOffset` in Machine/Bus.lean. Safe. -/
  | accessWidth
  /-- A host access outside the window (R205). Raised by `accessOffset` in Machine/Bus.lean. Safe. -/
  | outsideWindow
  /-- A host access at an offset that is no multiple of 4 (R205). Raised by `accessOffset` in Machine/Bus.lean. Safe. -/
  | misaligned
  deriving DecidableEq, Repr

/-- The state of the block and of its one host. -/
structure State where
  /-- BLOCK_BASE and BUF_BYTES (R9); CFG reads BUF_BYTES (R121). No step changes it. -/
  params : Params
  /-- STATUS.ERR (R104). -/
  statusErr : BitVec 4
  /-- STATUS.LASTOP (R104). -/
  statusLastop : Byte
  /-- ERRACC[6:0] (R105). -/
  erracc : BitVec 7
  /-- CRC[15:0] (R106). -/
  crc : Half
  /-- DIN[7:0] (R107). -/
  din : Byte
  /-- FRM_CMD[7:0] (R108). -/
  frmCmd : Byte
  /-- FRM_REGID (R109). -/
  frmRegid : Word
  /-- TXLEN[3:0] (R110). -/
  txlen : BitVec 4
  /-- TXBUF[0..8] (R122). -/
  txbuf : Vector Byte 9
  /-- RXLEN[15:0] (R111). -/
  rxlen : Half
  /-- The written bytes of RXBUF (R123). -/
  rxbuf : Memory
  /-- PAYLOAD_LEN[15:0] (R112). -/
  payloadLen : Half
  /-- The 64 bits of RAW_HI and RAW_LO (R113). -/
  raw : DWord
  /-- RX_CRC[15:0] (R114). -/
  rxCrc : Half
  /-- FLT_SPEC.SB (R115). -/
  fltSb : Byte
  /-- FLT_SPEC.EB (R115). -/
  fltEb : Byte
  /-- FLT_SPEC.MB (R115). -/
  fltMb : Byte
  /-- The 64 bits of FLT_IN_HI and FLT_IN_LO (R116). -/
  fltIn : DWord
  /-- FLT_RES.CLASS (R117). -/
  fltClass : FltClass
  /-- FLT_RES.SIGN (R117). -/
  fltSign : Bool
  /-- The 64 bits of FLT_SIG_HI and FLT_SIG_LO (R118). -/
  fltSig : DWord
  /-- The 64 bits of FLT_EXP_HI and FLT_EXP_LO, two's complement (R119). -/
  fltExp : DWord
  /-- The 64 bits of FLT_F64_HI and FLT_F64_LO (R120). -/
  fltF64 : DWord
  /-- The model's own: how many resets there have been, which picks the draws of R702. Log 2. -/
  draws : Nat
  /-- The model's own: the host's coming accesses and resets, oldest first (R708). Log 4. -/
  pending : List Event
  /-- The model's own: what the host's reads returned, oldest first (R201). Log 6. -/
  returned : List Word
  deriving DecidableEq, Repr

/-- The block right after reset: the reset values of R102 and R700, RXBUF undefined (R702: nothing listed), and a host
that has no access coming. Log 5, 15. -/
def State.reset : State where
  params := Config.defaultParams
  statusErr := 0
  statusLastop := 0
  erracc := 0
  crc := 0xFFFF
  din := 0
  frmCmd := 0
  frmRegid := 0
  txlen := 0
  txbuf := Vector.replicate 9 0
  rxlen := 0
  rxbuf := []
  payloadLen := 0
  raw := 0
  rxCrc := 0
  fltSb := 1
  fltEb := 8
  fltMb := 23
  fltIn := 0
  fltClass := .none
  fltSign := false
  fltSig := 0
  fltExp := 0
  fltF64 := 0
  draws := 0
  pending := []
  returned := []

end Sys2Proof.Machine
end

