-- ==== Sys2Proof/Machine/Bits.lean ====
section
/-! DEFINITION. Bit fields, the halves of 64-bit quantities and big-endian byte sequences (spec/00_scope.md R10, R11;
spec/20_memory.md R206, R207). -/

namespace Sys2Proof.Machine

/-- `zext_32` (R10). -/
def zext32 {n : Nat} (v : BitVec n) : Word := v.setWidth 32

/-- Bits [31:0], the `_LO` register of a 64-bit quantity (R207). -/
def loWord (d : DWord) : Word := d.extractLsb' 0 32

/-- Bits [63:32], the `_HI` register of a 64-bit quantity (R207). -/
def hiWord (d : DWord) : Word := d.extractLsb' 32 32

/-- `{hi, lo}` (R10). -/
def joinWords (hi lo : Word) : DWord := hi ++ lo

/-- `be(s)`, the big-endian value of a byte sequence (R11). -/
def beValue (bs : List Byte) : Nat := bs.foldl (fun v b => v * 256 + b.toNat) 0

/-- `be_bytes_k(v)`: the `k` bytes of `v`, the most significant first (R11). -/
def beBytes : Nat → Nat → List Byte
  | 0, _ => []
  | k + 1, v => BitVec.ofNat 8 (v / 256 ^ k) :: beBytes k v

end Sys2Proof.Machine
end

