-- ==== Sys2Proof/Machine/Flags.lean ====
section
/-! DEFINITION. The block's only flags: the code in STATUS.ERR and the sticky bits of ERRACC (spec/10_state.md R104, R105,
R125; spec/60_exceptions.md R601). -/

namespace Sys2Proof.Machine

/-- STATUS.ERR after a command that ends without an error (R601 code 0). -/
def okCode : BitVec 4 := 0

/-- The code of an error (R601). -/
def errCode : BlockError → BitVec 4
  | .frameTooShort => 1
  | .checksumMismatch => 2
  | .valueOutOfRange => 3
  | .invalidSpec => 4
  | .illegalCommand => 5
  | .lengthOutOfRange => 6

/-- The ERRACC bit of an error, `1 << k` (R105). -/
def errBit (e : BlockError) : BitVec 7 := 1 <<< (errCode e).toNat

/-- ERRACC after an error (R605). -/
def erraccSet (acc : BitVec 7) (e : BlockError) : BitVec 7 := acc ||| errBit e

/-- ERRACC after a host write of `w` (R105): `ERRACC & ~(w & 0x7E)`. -/
def erraccClear (acc : BitVec 7) (w : Word) : BitVec 7 := acc &&& ~~~(w.setWidth 7 &&& 0x7E)

/-- The word STATUS reads as (R104). -/
def statusWord (err : BitVec 4) (lastop : Byte) : Word := zext32 lastop <<< 8 ||| zext32 err

end Sys2Proof.Machine
end

