-- ==== Sys2Proof/Machine/Ops.lean ====
section
/-! DEFINITION. The named operations over registers and buffers: RXBUF as memory, the end of a command with and without
an error (the block's counterpart of taking an exception), the result registers, reset, and the host's record. -/

namespace Sys2Proof.Machine

/-- The written byte at an index, if one is listed. -/
def Memory.get? : Memory → Nat → Option Byte
  | [], _ => none
  | (a, b) :: m, i => if a = i then some b else Memory.get? m i

/-- Write one byte, keeping the indexes strictly rising. -/
def Memory.put : Memory → Nat → Byte → Memory
  | [], i, v => [(i, v)]
  | (a, b) :: m, i, v =>
    if i < a then (i, v) :: (a, b) :: m
    else if i = a then (i, v) :: m
    else (a, b) :: Memory.put m i v

/-- RXBUF[i]: the byte the host wrote, or the draw of the last reset (R123, R702: "Reading an unwritten RXBUF byte returns
the draw; it is not a fault"). -/
def rxByte (s : State) (i : Nat) : Byte := (Memory.get? s.rxbuf i).getD (Config.rxDraw s.draws i)

/-- A host write of one RXBUF byte (R123). -/
def setRxByte (i : Nat) (b : Byte) (s : State) : State := { s with rxbuf := Memory.put s.rxbuf i b }

/-- `finish()` of R12: the command whose opcode is `op` ends without an error. STATUS is written, ERRACC stays (R605). -/
def finish (op : Byte) (s : State) : State := { s with statusErr := okCode, statusLastop := op }

/-- `raise E(k)` of R605, the one way an error is taken: STATUS and one ERRACC bit are written, nothing else. The block has
no trap to enter and none to return from (R608, R609): the next command runs as if there had been no error. -/
def raiseError (op : Byte) (e : BlockError) (s : State) : State :=
  { s with statusErr := errCode e, statusLastop := op, erracc := erraccSet s.erracc e }

/-- Write CRC[15:0] (R106). -/
def setCrc (v : Half) (s : State) : State := { s with crc := v }

/-- Write RX_CRC[15:0] (R114). -/
def setRxCrc (v : Half) (s : State) : State := { s with rxCrc := v }

/-- Write all nine bytes of TXBUF, and TXLEN <- 9 (R110, R122). -/
def setFrame (f : Vector Byte 9) (s : State) : State := { s with txbuf := f, txlen := 9 }

/-- Write PAYLOAD_LEN, RAW_LO and RAW_HI (R112, R113). -/
def setPayload (len : Half) (v : DWord) (s : State) : State := { s with payloadLen := len, raw := v }

/-- Write FLT_RES, FLT_SIG, FLT_EXP and FLT_F64 (R117 to R120). -/
def setFloat (cls : FltClass) (sign : Bool) (sig exp f64 : DWord) (s : State) : State :=
  { s with fltClass := cls, fltSign := sign, fltSig := sig, fltExp := exp, fltF64 := f64 }

/-- The host's events still to come. -/
def setPending (es : List Event) (s : State) : State := { s with pending := es }

/-- A host read returned `w` (R201). -/
def pushReturned (w : Word) (s : State) : State := { s with returned := s.returned ++ [w] }

/-- The reset input asserted (R700): every register takes its reset value, RXBUF new draws (R702), and the parameters and
the host's own record stay. Log 7. -/
def assertReset (s : State) : State :=
  { State.reset with params := s.params, draws := s.draws + 1, pending := s.pending, returned := s.returned }

end Sys2Proof.Machine
end

