-- ==== Sys2Proof/Machine/Operands.lean ====
section
/-! DEFINITION. The operands commands read (spec/30_encoding.md R304): every one is a register or a buffer as it stands at
the CMD write. CRC, DIN, FRM_CMD and FRM_REGID are read as the fields `crc`, `din`, `frmCmd`, `frmRegid` of State. -/

namespace Sys2Proof.Machine

/-- A FloatSpec (R500): the fields of FLT_SPEC as naturals (R115). -/
structure FloatSpec where
  signBits : Nat
  exponentBits : Nat
  mantissaBits : Nat
  deriving DecidableEq, Repr

/-- RXLEN[15:0] as a count of bytes (R111). -/
def rxLength (s : State) : Nat := s.rxlen.toNat

/-- The bytes RXBUF[0..n) in index order (R220). -/
def rxBytes (s : State) (n : Nat) : List Byte := (List.range n).map (rxByte s)

/-- SB, EB and MB of FLT_SPEC (R115, R510). -/
def floatSpec (s : State) : FloatSpec :=
  { signBits := s.fltSb.toNat, exponentBits := s.fltEb.toNat, mantissaBits := s.fltMb.toNat }

/-- n = {FLT_IN_HI, FLT_IN_LO} (R116). -/
def floatInput (s : State) : Nat := s.fltIn.toNat

end Sys2Proof.Machine
end

