-- ==== Sys2Proof/Machine/Float.lean ====
section
/-! DEFINITION. The float unit (spec/42_float.md): the decoder of R500 to R508, the binary64 view of R509 and the meaning
of FLT_DEC. -/

namespace Sys2Proof.Machine

/-- W = SB + EB + MB (R500). -/
def floatWidth (sp : FloatSpec) : Nat := sp.signBits + sp.exponentBits + sp.mantissaBits

/-- Spec validation (R501): one sign bit, and at most FLT_IN_WIDTH bits. -/
def floatSpecValid (sp : FloatSpec) : Bool :=
  sp.signBits == 1 && decide (floatWidth sp ≤ Config.fltInWidth)

/-- The fields of an input (R503). -/
structure FloatFields where
  sign : Bool
  ef : Nat
  mf : Nat
  deriving DecidableEq, Repr

/-- Field extraction (R503). -/
def floatFields (sp : FloatSpec) (n : Nat) : FloatFields :=
  { sign := n.testBit (floatWidth sp - 1)
    ef := (n >>> sp.mantissaBits) % 2 ^ sp.exponentBits
    mf := n % 2 ^ sp.mantissaBits }

/-- A decoded float: class, sign, and for a finite one the exact value (−1)^sign × sig × 2^q (R508). -/
structure FloatResult where
  cls : FltClass
  sign : Bool
  sig : Nat
  q : Int
  deriving DecidableEq, Repr

/-- The implicit leading term (R506). -/
def implicitTerm (ef : Nat) : Nat := if ef = 0 then 0 else 1

/-- The bias 2^(EB−1) − 1 (R504), read only when EB ≥ 1. -/
def floatBias (sp : FloatSpec) : Int := 2 ^ (sp.exponentBits - 1) - 1

/-- The decoder: the special values first (R505), then the finite result (R506 to R508). -/
def floatResult (sp : FloatSpec) (n : Nat) : FloatResult :=
  let f := floatFields sp n
  if f.ef = 2 ^ sp.exponentBits - 1 then
    { cls := if f.mf = 2 ^ sp.mantissaBits - 1 then .nan else .infinity, sign := f.sign, sig := 0, q := 0 }
  else
    { cls := .finite
      sign := f.sign
      sig := implicitTerm f.ef * 2 ^ sp.mantissaBits + f.mf
      q := f.ef - floatBias sp - sp.mantissaBits }

/-- `m / 2^r` rounded to the nearest natural, ties to even (R13). -/
def roundShift (m r : Nat) : Nat :=
  let k := m / 2 ^ r
  let rest := m % 2 ^ r
  if 2 ^ r < 2 * rest ∨ (2 * rest = 2 ^ r ∧ k % 2 = 1) then k + 1 else k

/-- The bits of +Infinity below the sign bit (R509). -/
def f64InfBits : Nat := 0x7FF0000000000000

/-- The binary64 bits, below the sign bit, of `sig × 2^q` rounded to nearest with ties to even (R13, R509). With `e` the
exponent of the leading bit, `u` is the exponent of one unit in the last place; a carry out of the significand runs into
the exponent field, and past the largest exponent it gives Infinity. The IEEE 754 encoding is PRESUMED (general knowledge,
spec/93 G3); log 9. -/
def f64Magnitude (sig : Nat) (q : Int) : Nat :=
  if sig = 0 then 0
  else
    let e : Int := sig.log2 + q
    if 1023 < e then f64InfBits
    else if e < -1075 then 0
    else
      let u : Int := max (e - 52) (-1074)
      let m := if u ≤ q then sig * 2 ^ (q - u).toNat else roundShift sig (u - q).toNat
      (u + 1074).toNat * 2 ^ 52 + m

/-- The sign bit of a binary64 pattern. -/
def f64SignBit (sign : Bool) : Nat := if sign then 2 ^ 63 else 0

/-- `round64((−1)^sign × sig × 2^q)` (R13). -/
def round64 (sign : Bool) (sig : Nat) (q : Int) : DWord := BitVec.ofNat 64 (f64SignBit sign + f64Magnitude sig q)

/-- The binary64 view of a result (R509). `none` is the class of no result, whose view is the reset value (R120). -/
def f64View (r : FloatResult) : DWord :=
  match r.cls with
  | .finite => round64 r.sign r.sig r.q
  | .infinity => BitVec.ofNat 64 (f64SignBit r.sign + f64InfBits)
  | .nan => 0x7FF8000000000000
  | .none => 0

/-- FLT_DEC (R510): INVALID_SPEC is tried before VALUE_OUT_OF_RANGE (R604); a NaN or an Infinity is a result. -/
def execFltDec (s : State) : Host.Outcome State Fault Refusal :=
  if floatSpecValid (floatSpec s) = false then .next (raiseError (opcode .fltDec) .invalidSpec s)
  else if 2 ^ floatWidth (floatSpec s) ≤ floatInput s then .next (raiseError (opcode .fltDec) .valueOutOfRange s)
  else
    let r := floatResult (floatSpec s) (floatInput s)
    .next (finish (opcode .fltDec)
      (setFloat r.cls r.sign (BitVec.ofNat 64 r.sig) (BitVec.ofInt 64 r.q) (f64View r) s))

end Sys2Proof.Machine
end

