-- ==== Sys2Proof/Machine/Checksum.lean ====
section
/-! DEFINITION. The checksum unit (spec/40_checksum.md): the algorithm of R400 and R401 and the meanings of NOP, CKS_INIT,
CKS_BYTE and CKS_BUF. -/

namespace Sys2Proof.Machine

/-- One input bit of R400: shift left, and XOR the polynomial in when the top bit before the shift differs from the input
bit. -/
def crcBit (r : Half) (inBit : Bool) : Half :=
  if r.getLsbD 15 ^^ inBit then (r <<< 1) ^^^ Config.crcPoly else r <<< 1

/-- One checksum step (R400): the bits of the byte, the most significant first. -/
def crcStep (r : Half) (b : Byte) : Half :=
  [7, 6, 5, 4, 3, 2, 1, 0].foldl (fun r i => crcBit r (b.getLsbD i)) r

/-- The checksum of a byte sequence (R401). -/
def checksum (bs : List Byte) : Half := bs.foldl crcStep Config.crcInit

/-- The table form's entry T[k] (R402). -/
def crcTable (k : Byte) : Half := crcStep (k.zeroExtend 16 <<< 8) 0

/-- NOP (R410): STATUS <- 0. -/
def execNop (s : State) : Host.Outcome State Fault Refusal := .next (finish (opcode .nop) s)

/-- CKS_INIT (R411): load the initial checksum register. -/
def execCksInit (s : State) : Host.Outcome State Fault Refusal :=
  .next (finish (opcode .cksInit) (setCrc Config.crcInit s))

/-- CKS_BYTE (R412): feed DIN[7:0] to CRC[15:0]. -/
def execCksByte (s : State) : Host.Outcome State Fault Refusal :=
  .next (finish (opcode .cksByte) (setCrc (crcStep s.crc s.din) s))

/-- CKS_BUF (R413): the checksum of RXBUF[0..RXLEN), after the length check. -/
def execCksBuf (s : State) : Host.Outcome State Fault Refusal :=
  if s.params.bufBytes < rxLength s then .next (raiseError (opcode .cksBuf) .lengthOutOfRange s)
  else .next (finish (opcode .cksBuf) (setCrc (checksum (rxBytes s (rxLength s))) s))

end Sys2Proof.Machine
end

