-- ==== Sys2Proof/Machine/Frame.lean ====
section
/-! DEFINITION. The frame unit (spec/41_frame.md): the wire formats of R450 to R453 and the meanings of FRM_ENC and
FRM_DEC. -/

namespace Sys2Proof.Machine

/-- The header of a request: command, the fixed length byte, registerId big-endian (R450, R451). -/
def requestHeader (c : Byte) (id : Word) : List Byte := [c, Config.readLen] ++ beBytes 4 id.toNat

/-- `encode` of R451: the nine bytes of a request frame. -/
def encodeFrame (c : Byte) (id : Word) : List Byte :=
  [Config.startMarker] ++ requestHeader c id ++ beBytes 2 (checksum (requestHeader c id)).toNat

/-- Nine bytes as TXBUF holds them (R122). -/
def frameVector (f : List Byte) : Vector Byte 9 :=
  #v[f.getD 0 0, f.getD 1 0, f.getD 2 0, f.getD 3 0, f.getD 4 0, f.getD 5 0, f.getD 6 0, f.getD 7 0, f.getD 8 0]

/-- A response without its trailing checksum: header and payload (R452, R453). -/
def responseBody (r : List Byte) : List Byte := r.take (r.length - 2)

/-- The trailing checksum field, the last two bytes big-endian (R452, R453). -/
def responseTrailer (r : List Byte) : Nat := beValue (r.drop (r.length - 2))

/-- RawValue: the payload as a big-endian number (R457). -/
def responseValue (r : List Byte) : Nat := beValue ((responseBody r).drop Config.hdrBytes)

/-- `decode` of R453 on a response, as a function of the bytes alone. -/
def decodeResponse (r : List Byte) : Except BlockError Nat :=
  if r.length < Config.minResp then .error .frameTooShort
  else if (checksum (responseBody r)).toNat ≠ responseTrailer r then .error .checksumMismatch
  else .ok (responseValue r)

/-- FRM_ENC (R454): build a request frame in TXBUF. -/
def execFrmEnc (s : State) : Host.Outcome State Fault Refusal :=
  let f := encodeFrame s.frmCmd s.frmRegid
  .next (finish (opcode .frmEnc) (setCrc (BitVec.ofNat 16 (beValue (f.drop 7))) (setFrame (frameVector f) s)))

/-- FRM_DEC (R455): validate and unpack the response in RXBUF[0..RXLEN). The errors are tried in the order of R604; RX_CRC
and CRC are written before CHECKSUM_MISMATCH is raised (R605). -/
def execFrmDec (s : State) : Host.Outcome State Fault Refusal :=
  if s.params.bufBytes < rxLength s then .next (raiseError (opcode .frmDec) .lengthOutOfRange s)
  else if rxLength s < Config.minResp then .next (raiseError (opcode .frmDec) .frameTooShort s)
  else
    let r := rxBytes s (rxLength s)
    let checked := setCrc (checksum (responseBody r)) (setRxCrc (BitVec.ofNat 16 (responseTrailer r)) s)
    if (checksum (responseBody r)).toNat ≠ responseTrailer r then
      .next (raiseError (opcode .frmDec) .checksumMismatch checked)
    else
      .next (finish (opcode .frmDec)
        (setPayload (BitVec.ofNat 16 (rxLength s - 8)) (BitVec.ofNat 64 (responseValue r)) checked))

end Sys2Proof.Machine
end

