-- ==== Sys2Proof/Machine/Dispatch.lean ====
section
/-! DEFINITION. Dispatch (spec/30_encoding.md R310): each command to its meaning. -/

namespace Sys2Proof.Machine

def exec (i : Instr) (s : State) : Host.Outcome State Fault Refusal :=
  match i with
  | .nop => Sys2Proof.Machine.execNop s
  | .cksInit => Sys2Proof.Machine.execCksInit s
  | .cksByte => Sys2Proof.Machine.execCksByte s
  | .cksBuf => Sys2Proof.Machine.execCksBuf s
  | .frmEnc => Sys2Proof.Machine.execFrmEnc s
  | .frmDec => Sys2Proof.Machine.execFrmDec s
  | .fltDec => Sys2Proof.Machine.execFltDec s

end Sys2Proof.Machine
end

