-- ==== Sys2Proof/Machine/Bus.lean ====
section
/-! DEFINITION. The register window (spec/10_state.md R102) and the host's accesses to it (spec/20_memory.md R200 to R205):
where each place lies, what a read returns, what a write does, and the command a CMD write runs. -/

namespace Sys2Proof.Machine

/-- The offset of a register (R102). -/
def regOffset : Reg → Nat
  | .cmd => 0x000
  | .status => 0x004
  | .erracc => 0x008
  | .crc => 0x00C
  | .din => 0x010
  | .frmCmd => 0x014
  | .frmRegid => 0x018
  | .txlen => 0x01C
  | .rxlen => 0x020
  | .payloadLen => 0x024
  | .rawLo => 0x028
  | .rawHi => 0x02C
  | .rxCrc => 0x030
  | .fltSpec => 0x034
  | .fltInLo => 0x038
  | .fltInHi => 0x03C
  | .fltRes => 0x040
  | .fltSigLo => 0x044
  | .fltSigHi => 0x048
  | .fltExpLo => 0x04C
  | .fltExpHi => 0x050
  | .fltF64Lo => 0x054
  | .fltF64Hi => 0x058
  | .cfg => 0x05C

/-- The offset of a place of the window (R102). -/
def locationOffset : Location → Nat
  | .reg r => regOffset r
  | .txbuf i => 0x200 + 4 * i.val
  | .rxbuf i => 0x400 + 4 * i
  | .reserved off => off

/-- The registers in the order of their offsets (R102). -/
def regTable : List Reg :=
  [.cmd, .status, .erracc, .crc, .din, .frmCmd, .frmRegid, .txlen, .rxlen, .payloadLen, .rawLo, .rawHi] ++
  [.rxCrc, .fltSpec, .fltInLo, .fltInHi, .fltRes, .fltSigLo, .fltSigHi, .fltExpLo, .fltExpHi, .fltF64Lo, .fltF64Hi, .cfg]

/-- The place at an aligned offset (R102). -/
def locate (off : Nat) : Location :=
  if off < 0x060 then
    match regTable[off / 4]? with
    | some r => .reg r
    | none => .reserved off
  else if off < 0x200 then .reserved off
  else if off < 0x224 then .txbuf (Fin.ofNat 9 ((off - 0x200) / 4))
  else if off < 0x400 then .reserved off
  else .rxbuf ((off - 0x400) / 4)

/-- The code of FLT_RES.CLASS (R117). -/
def classCode : FltClass → BitVec 2
  | .finite => 0
  | .infinity => 1
  | .nan => 2
  | .none => 3

/-- The word a register reads as, with its reserved bits 0 (R103 to R121). -/
def readReg (s : State) : Reg → Word
  | .cmd => 0
  | .status => statusWord s.statusErr s.statusLastop
  | .erracc => zext32 s.erracc
  | .crc => zext32 s.crc
  | .din => zext32 s.din
  | .frmCmd => zext32 s.frmCmd
  | .frmRegid => s.frmRegid
  | .txlen => zext32 s.txlen
  | .rxlen => zext32 s.rxlen
  | .payloadLen => zext32 s.payloadLen
  | .rawLo => loWord s.raw
  | .rawHi => hiWord s.raw
  | .rxCrc => zext32 s.rxCrc
  | .fltSpec => zext32 s.fltMb <<< 16 ||| zext32 s.fltEb <<< 8 ||| zext32 s.fltSb
  | .fltInLo => loWord s.fltIn
  | .fltInHi => hiWord s.fltIn
  | .fltRes => zext32 (BitVec.ofBool s.fltSign) <<< 8 ||| zext32 (classCode s.fltClass)
  | .fltSigLo => loWord s.fltSig
  | .fltSigHi => hiWord s.fltSig
  | .fltExpLo => loWord s.fltExp
  | .fltExpHi => hiWord s.fltExp
  | .fltF64Lo => loWord s.fltF64
  | .fltF64Hi => hiWord s.fltF64
  | .cfg => BitVec.ofNat 32 s.params.bufBytes

/-- The word a place of the window reads as (R201). -/
def readLocation (s : State) : Location → Word
  | .reg r => readReg s r
  | .txbuf i => zext32 s.txbuf[i]
  | .rxbuf i => zext32 (rxByte s i)
  | .reserved _ => 0

/-- A host write to a register other than CMD (R202): the writable bits of an RW register, the W1C bits of ERRACC, nothing
for an RO register. CMD itself holds no state (R103): its command is run by `hostWrite`. -/
def writeReg (w : Word) (s : State) : Reg → State
  | .erracc => { s with erracc := erraccClear s.erracc w }
  | .crc => { s with crc := w.setWidth 16 }
  | .din => { s with din := w.setWidth 8 }
  | .frmCmd => { s with frmCmd := w.setWidth 8 }
  | .frmRegid => { s with frmRegid := w }
  | .rxlen => { s with rxlen := w.setWidth 16 }
  | .fltSpec => { s with fltSb := w.extractLsb' 0 8, fltEb := w.extractLsb' 8 8, fltMb := w.extractLsb' 16 8 }
  | .fltInLo => { s with fltIn := joinWords (hiWord s.fltIn) w }
  | .fltInHi => { s with fltIn := joinWords w (loWord s.fltIn) }
  | .cmd | .status | .txlen | .payloadLen | .rawLo | .rawHi | .rxCrc => s
  | .fltRes | .fltSigLo | .fltSigHi | .fltExpLo | .fltExpHi | .fltF64Lo | .fltF64Hi | .cfg => s

/-- An illegal command word (R305): ILLEGAL_COMMAND with LASTOP = w[7:0]. -/
def execIllegal (w : Word) (s : State) : State := raiseError (opField w) .illegalCommand s

/-- A write of `w` to CMD runs one command (R203, R310). -/
def runCommand (w : Word) (s : State) : Host.Outcome State Fault Refusal :=
  match decode w with
  | .ok i => exec i s
  | .error _ => .next (execIllegal w s)

/-- A host write to a place of the window (R202). -/
def hostWrite (l : Location) (w : Word) (s : State) : Host.Outcome State Fault Refusal :=
  match l with
  | .reg r => if r = .cmd then runCommand w s else .next (writeReg w s r)
  | .txbuf _ => .next s
  | .rxbuf i => .next (setRxByte i (w.setWidth 8) s)
  | .reserved _ => .next s

/-- The offset of an admitted access, or the reason R205 refuses it. Log 8. -/
def accessOffset (p : Params) (a : Access) : Except Refusal Nat :=
  if a.width ≠ .w32 then .error .accessWidth
  else if a.addr < p.blockBase ∨ p.blockBase + p.windowSize ≤ a.addr then .error .outsideWindow
  else if (a.addr - p.blockBase) % 4 ≠ 0 then .error .misaligned
  else .ok (a.addr - p.blockBase)

/-- One access of the host (R201, R202): a read returns a word and changes nothing of the block (R210). -/
def hostAccess (a : Access) (s : State) : Host.Outcome State Fault Refusal :=
  match accessOffset s.params a with
  | .error r => .refused r
  | .ok off =>
    match a.dir with
    | .read => .next (pushReturned (readLocation s (locate off)) s)
    | .write w => hostWrite (locate off) w s

/-- One event of the outside (R213, R700). -/
def runEvent (e : Event) (s : State) : Host.Outcome State Fault Refusal :=
  match e with
  | .access a => hostAccess a s
  | .reset => .next (assertReset s)

/-- The access that writes `w` to CMD of the block with parameters `p`. -/
def cmdWrite (p : Params) (w : Word) : Access := { width := .w32, addr := p.blockBase, dir := .write w }

end Sys2Proof.Machine
end

