-- ==== Sys2Proof/Machine/Step.lean ====
section
/-! DEFINITION. One step: the oldest event the outside has in store, taken whole (spec/20_memory.md R203, R213). The block
fetches nothing (spec/10_state.md R101): its next command is the data of the host's next CMD write. -/

namespace Sys2Proof.Machine

/-- One step. With no event to come the block does nothing (R126, R213), so the end state of a run stays readable (R708).
DEDUCED, log 4. -/
def step (s : State) : Host.Outcome State Fault Refusal :=
  match s.pending with
  | [] => .next s
  | e :: es => runEvent e (setPending es s)

/-- The state whose next event is the host's write of the table's word to CMD, so that the next step runs it. Log 5. -/
def State.withFetchWord (s : State) (nbits w : Nat) : State :=
  setPending (.access (cmdWrite s.params (BitVec.ofNat 32 (tableValue nbits w))) :: s.pending) s

end Sys2Proof.Machine
end

