-- ==== Sys2Proof/Machine/HostProgram.lean ====
section
/-! DEFINITION. The host's side of the block, as pure functions that no step calls: the bus transaction of a listing line
(spec/30_encoding.md R307), the pseudo-operations (R308), the bytes of an integer stream (spec/40_checksum.md R404), and the
host's use of the error codes (spec/60_exceptions.md R620, R621). Log 14. -/

namespace Sys2Proof.Machine

/-- The bus access of a write of `w` to a place of the window (R307). -/
def writeAccess (p : Params) (l : Location) (w : Word) : Access :=
  { width := .w32, addr := p.blockBase + locationOffset l, dir := .write w }

/-- The bus access of a read of a place of the window (R307). -/
def readAccess (p : Params) (l : Location) : Access :=
  { width := .w32, addr := p.blockBase + locationOffset l, dir := .read }

/-- The encoding of a line is its bus transaction (R307). -/
def lineEvent (p : Params) : HostLine → Event
  | .wr l v => .access (writeAccess p l v)
  | .rd l => .access (readAccess p l)
  | .cmd i => .access (writeAccess p (.reg .cmd) (encode i))

/-- The events of a listing. -/
def listing (p : Params) (ls : List HostLine) : List Event := ls.map (lineEvent p)

/-- Feed bytes to a running checksum: for each, `wr DIN, b` and `cmd CKS_BYTE` (R308). -/
def feedBytes : List Byte → List HostLine
  | [] => []
  | b :: bs => .wr (.reg .din) (zext32 b) :: .cmd .cksByte :: feedBytes bs

/-- `crc_bytes b0, ..., b(k-1)` (R308). -/
def crcBytes (bs : List Byte) : List HostLine := .cmd .cksInit :: feedBytes bs

/-- `wr RXBUF[j], b` for the bytes from index `j` on (R308). -/
def fillRx : Nat → List Byte → List HostLine
  | _, [] => []
  | j, b :: bs => .wr (.rxbuf j) (zext32 b) :: fillRx (j + 1) bs

/-- `load_rx b0, ..., b(k-1)` (R308). -/
def loadRx (bs : List Byte) : List HostLine := fillRx 0 bs ++ [.wr (.reg .rxlen) (BitVec.ofNat 32 bs.length)]

/-- `request cmdbyte, regid` (R308). -/
def requestLines (c : Byte) (id : Word) : List HostLine :=
  [.wr (.reg .frmCmd) (zext32 c), .wr (.reg .frmRegid) id, .cmd .frmEnc]

/-- `float n, sb, eb, mb` (R308). -/
def floatLines (n : DWord) (sb eb mb : Byte) : List HostLine :=
  [.wr (.reg .fltSpec) (zext32 mb <<< 16 ||| zext32 eb <<< 8 ||| zext32 sb), .wr (.reg .fltInLo) (loWord n),
    .wr (.reg .fltInHi) (hiWord n), .cmd .fltDec]

/-- The bytes of a value of `d` hex digits, an odd count padded with a trailing zero nibble (R404). -/
def intBytes (v d : Nat) : List Byte :=
  if d % 2 = 0 then beBytes (d / 2) v else beBytes ((d + 1) / 2) (v * 16)

/-- How the host takes the end of a command (R620). -/
inductive AttemptClass where
  /-- The command ended OK. -/
  | success
  /-- One failed attempt, counted toward the bound. -/
  | counted
  /-- Caller error, not retried. -/
  | notRetried
  /-- An error the source's host never produces. -/
  | hostBug
  deriving DecidableEq, Repr

/-- Retry classification (R620); `none` is OK. -/
def attemptClass : Option BlockError → AttemptClass
  | none => .success
  | some .frameTooShort => .counted
  | some .checksumMismatch => .counted
  | some .valueOutOfRange => .notRetried
  | some .invalidSpec => .notRetried
  | some .illegalCommand => .hostBug
  | some .lengthOutOfRange => .hostBug

/-- The fixed bound of failed attempts (R621, spec/90_conflicts.md C4). -/
def retryBound : Nat := 5

/-- After a counted failure with `failCount` failures before it (R621): the new count when the host retries, or nothing
when the bound is reached and the call fails with ConnectionError. -/
def afterFailure (failCount : Nat) : Option Nat :=
  if failCount + 1 = retryBound then none else some (failCount + 1)

end Sys2Proof.Machine
end

