-- ==== Sys2Proof/Safety.lean ====
section
/-! DEFINITION. The terms the statements use: the invariant of the block, the writable bits of each register
(spec/10_state.md), and the exact and the binary64 values of a float as rationals (spec/42_float.md R508, R509). -/

namespace Sys2Proof

open Sys2Proof.Machine

/-- STATUS holds what a command can have left there (R601): codes 0 to 6, each under a LASTOP that can raise it. A legal
command ends OK under its own opcode; an illegal word may leave any LASTOP. -/
def StatusInv (s : State) : Prop :=
  (s.statusErr = 0 ∧ ∃ i, s.statusLastop = opcode i) ∨
  ((s.statusErr = 1 ∨ s.statusErr = 2) ∧ s.statusLastop = 0x11) ∨
  ((s.statusErr = 3 ∨ s.statusErr = 4) ∧ s.statusLastop = 0x20) ∨
  s.statusErr = 5 ∨
  (s.statusErr = 6 ∧ (s.statusLastop = 0x03 ∨ s.statusLastop = 0x11))

/-- TXBUF is empty, or holds the frame of some request, with TXLEN to match (R110, R122). -/
def TransmitInv (s : State) : Prop :=
  (s.txlen = 0 ∧ s.txbuf.toList = List.replicate 9 0) ∨
  (s.txlen = 9 ∧ ∃ c id, s.txbuf.toList = encodeFrame c id)

/-- The payload registers hold a payload that fits the buffer (R112, R457). -/
def PayloadInv (s : State) : Prop :=
  s.payloadLen.toNat + 8 ≤ s.params.bufBytes ∧ s.raw.toNat < 256 ^ s.payloadLen.toNat

/-- The float result registers agree with each other (R117 to R120, R508, R509). -/
def FloatInv (s : State) : Prop :=
  s.fltF64 = f64View { cls := s.fltClass, sign := s.fltSign, sig := s.fltSig.toNat, q := s.fltExp.toInt } ∧
  s.fltSig.toNat < 2 ^ 63 ∧
  (s.fltClass ≠ .finite → s.fltSig = 0 ∧ s.fltExp = 0) ∧
  (s.fltClass = .none → s.fltSign = false)

/-- The invariant of the block: what every run from reset keeps. -/
structure BlockInv (s : State) : Prop where
  params : s.params.wf = true
  rxbuf : Memory.wf s.params.bufBytes s.rxbuf
  status : StatusInv s
  erracc : s.erracc.getLsbD 0 = false
  transmit : TransmitInv s
  payload : PayloadInv s
  float : FloatInv s

/-- The bits a host write stores in an RW register (R106 to R116); none for the others. -/
def writableBits : Reg → Word
  | .crc | .rxlen => 0x0000FFFF
  | .din | .frmCmd => 0x000000FF
  | .frmRegid | .fltInLo | .fltInHi => 0xFFFFFFFF
  | .fltSpec => 0x00FFFFFF
  | .cmd | .status | .erracc | .txlen | .payloadLen | .rawLo | .rawHi | .rxCrc => 0
  | .fltRes | .fltSigLo | .fltSigHi | .fltExpLo | .fltExpHi | .fltF64Lo | .fltF64Hi | .cfg => 0

/-- The exact value (−1)^sign × sig × 2^q (R13, R508). -/
def exactValue (sign : Bool) (sig : Nat) (q : Int) : ℚ := (if sign then -1 else 1) * sig * (2 : ℚ) ^ q

/-- The exponent field of a binary64 pattern. -/
def f64ExpField (d : DWord) : Nat := (d.extractLsb' 52 11).toNat

/-- The fraction field of a binary64 pattern. -/
def f64Fraction (d : DWord) : Nat := (d.extractLsb' 0 52).toNat

/-- A binary64 pattern that is neither an Infinity nor a NaN. -/
def f64Finite (d : DWord) : Prop := f64ExpField d ≠ 2047

/-- The value of a finite binary64 pattern (IEEE 754, general knowledge: spec/93 G3). -/
def f64Value (d : DWord) : ℚ :=
  if f64ExpField d = 0 then exactValue d.msb (f64Fraction d) (-1074)
  else exactValue d.msb (2 ^ 52 + f64Fraction d) ((f64ExpField d : Int) - 1075)

end Sys2Proof
end

