-- ==== Sys2Proof/Certificates/Slice0/Obligations.lean ====
section
/-! DEFINITION. The statements for the provers, from the numbered rules of spec/. -/

open Sys2Proof Sys2Proof.Machine

/-! ### The command word -/

/-- R309: the decoder reads a command exactly from the command word the map gives it, and refuses every other word. -/
def Obligations.DecodeReadsExactlyTheCommandWords : Prop :=
  [Instr.nop, .cksInit, .cksByte, .cksBuf, .frmEnc, .frmDec, .fltDec].map encode =
    [0x00, 0x01, 0x02, 0x03, 0x10, 0x11, 0x20] ∧
  ∀ w : Word, (∀ i, decode w = .ok i ↔ w = encode i) ∧ ((∀ i, w ≠ encode i) → ∃ e, decode w = .error e)

/-- R303: the command words of the map, each read back as its command. -/
def Obligations.OpcodeMapWords : Prop :=
  decode 0x00000000 = .ok .nop ∧ decode 0x00000001 = .ok .cksInit ∧ decode 0x00000002 = .ok .cksByte ∧
  decode 0x00000003 = .ok .cksBuf ∧ decode 0x00000010 = .ok .frmEnc ∧ decode 0x00000011 = .ok .frmDec ∧
  decode 0x00000020 = .ok .fltDec ∧
  encode .nop = 0x00000000 ∧ encode .cksInit = 0x00000001 ∧ encode .cksByte = 0x00000002 ∧ encode .cksBuf = 0x00000003 ∧
  encode .frmEnc = 0x00000010 ∧ encode .frmDec = 0x00000011 ∧ encode .fltDec = 0x00000020

/-- R203, R310: a step whose event is a write of a command word to CMD is `exec` of the decoded command. -/
def Obligations.StepRunsTheDecodedCommand : Prop :=
  ∀ (s : State) (w : Word) (i : Instr) (es : List Event),
    s.pending = .access (cmdWrite s.params w) :: es → decode w = .ok i → step s = exec i { s with pending := es }

/-- R305: a CMD write of a word whose RSV bits are not all 0, or whose OP is not assigned, writes STATUS and ERRACC bit 5 and
changes nothing else of the block. -/
def Obligations.IllegalWordRecordsIllegalCommand : Prop :=
  ∀ (s : State) (w : Word) (es : List Event),
    s.pending = .access (cmdWrite s.params w) :: es →
    (w.extractLsb' 8 24 ≠ 0 ∨
      w.extractLsb' 0 8 ∉ [(0x00 : Byte), 0x01, 0x02, 0x03, 0x10, 0x11, 0x20]) →
    step s = .next { s with pending := es, statusErr := 5, statusLastop := w.extractLsb' 0 8,
                            erracc := s.erracc ||| 0x20 }

/-! ### The window -/

/-- R102, R129: every place of the window has one aligned offset inside it, and every aligned offset inside it is the offset
of the place found there. -/
def Obligations.WindowMapIsOneToOne : Prop :=
  ∀ p : Params,
    (∀ l : Location, l.wf p = true →
      locate (locationOffset l) = l ∧ locationOffset l % 4 = 0 ∧ locationOffset l < 0x400 + 4 * p.bufBytes) ∧
    (∀ off, off % 4 = 0 → off < 0x400 + 4 * p.bufBytes → (locate off).wf p = true ∧ locationOffset (locate off) = off)

/-- R102: the offset of every register as a number, of TXBUF[i] and RXBUF[i] as a formula, and the two reserved ranges; each
offset leads back to its place. -/
def Obligations.WindowOffsetsAreTheRegisterMap : Prop :=
  (∀ e ∈ [(Reg.cmd, 0x000), (.status, 0x004), (.erracc, 0x008), (.crc, 0x00C), (.din, 0x010), (.frmCmd, 0x014),
      (.frmRegid, 0x018), (.txlen, 0x01C), (.rxlen, 0x020), (.payloadLen, 0x024), (.rawLo, 0x028), (.rawHi, 0x02C),
      (.rxCrc, 0x030), (.fltSpec, 0x034), (.fltInLo, 0x038), (.fltInHi, 0x03C), (.fltRes, 0x040), (.fltSigLo, 0x044),
      (.fltSigHi, 0x048), (.fltExpLo, 0x04C), (.fltExpHi, 0x050), (.fltF64Lo, 0x054), (.fltF64Hi, 0x058), (.cfg, 0x05C)],
    locationOffset (.reg e.1) = e.2 ∧ locate e.2 = .reg e.1) ∧
  (∀ i : Fin 9, locationOffset (.txbuf i) = 0x200 + 4 * i.val ∧ locate (0x200 + 4 * i.val) = .txbuf i) ∧
  (∀ i : Nat, locationOffset (.rxbuf i) = 0x400 + 4 * i ∧ locate (0x400 + 4 * i) = .rxbuf i) ∧
  (∀ off : Nat, off % 4 = 0 → (0x060 ≤ off ∧ off ≤ 0x1FC) ∨ (0x224 ≤ off ∧ off ≤ 0x3FC) →
    locationOffset (.reserved off) = off ∧ locate off = .reserved off)

/-- R205: the steps that are refused are exactly the host accesses that are not 32 bits wide, lie outside the window, or are
at an offset that is no multiple of 4. -/
def Obligations.RefusedStepsAreTheBadAccesses : Prop :=
  ∀ s : State, (∃ r, step s = .refused r) ↔
    ∃ a es, s.pending = .access a :: es ∧
      (a.width ≠ .w32 ∨ a.addr < s.params.blockBase ∨ s.params.blockBase + (0x400 + 4 * s.params.bufBytes) ≤ a.addr ∨
        (a.addr - s.params.blockBase) % 4 ≠ 0)

/-- R201, R210: a read of a place of the window returns the word the place reads as and changes nothing of the block. The list
of returned words is the model's (log 6). -/
def Obligations.ReadReturnsTheWordAndChangesNothing : Prop :=
  ∀ (s : State) (l : Location) (es : List Event), l.wf s.params = true →
    s.pending = .access (readAccess s.params l) :: es →
    step s = .next { s with pending := es, returned := s.returned ++ [readLocation s l] }

/-- R103 to R122: the numbers the registers read as, field by field, with every reserved bit 0. -/
def Obligations.RegistersReadTheirFields : Prop :=
  ∀ s : State,
    readReg s .cmd = 0 ∧
    (readReg s .status).toNat = s.statusErr.toNat + 2 ^ 8 * s.statusLastop.toNat ∧
    (readReg s .erracc).toNat = s.erracc.toNat ∧
    (readReg s .crc).toNat = s.crc.toNat ∧
    (readReg s .din).toNat = s.din.toNat ∧
    (readReg s .frmCmd).toNat = s.frmCmd.toNat ∧
    (readReg s .frmRegid).toNat = s.frmRegid.toNat ∧
    (readReg s .txlen).toNat = s.txlen.toNat ∧
    (readReg s .rxlen).toNat = s.rxlen.toNat ∧
    (readReg s .payloadLen).toNat = s.payloadLen.toNat ∧
    (readReg s .rawLo).toNat + 2 ^ 32 * (readReg s .rawHi).toNat = s.raw.toNat ∧
    (readReg s .rxCrc).toNat = s.rxCrc.toNat ∧
    (readReg s .fltSpec).toNat = s.fltSb.toNat + 2 ^ 8 * s.fltEb.toNat + 2 ^ 16 * s.fltMb.toNat ∧
    (readReg s .fltInLo).toNat + 2 ^ 32 * (readReg s .fltInHi).toNat = s.fltIn.toNat ∧
    (readReg s .fltRes).toNat =
      (match s.fltClass with
        | .finite => 0
        | .infinity => 1
        | .nan => 2
        | .none => 3) + 2 ^ 8 * s.fltSign.toNat ∧
    (readReg s .fltSigLo).toNat + 2 ^ 32 * (readReg s .fltSigHi).toNat = s.fltSig.toNat ∧
    (readReg s .fltExpLo).toNat + 2 ^ 32 * (readReg s .fltExpHi).toNat = s.fltExp.toNat ∧
    (readReg s .fltF64Lo).toNat + 2 ^ 32 * (readReg s .fltF64Hi).toNat = s.fltF64.toNat ∧
    (s.params.wf = true → (readReg s .cfg).toNat = s.params.bufBytes) ∧
    (∀ i : Fin 9, (readLocation s (.txbuf i)).toNat = s.txbuf[i].toNat) ∧
    (∀ i, (readLocation s (.rxbuf i)).toNat = (rxByte s i).toNat) ∧
    (∀ off, readLocation s (.reserved off) = 0)

/-- R202: a host write to a register other than CMD and ERRACC stores its writable bits and leaves its other bits; every other
register and every buffer byte reads as before. The writable bits are R106 to R116's: none of a read-only register. -/
def Obligations.RegisterWritesStoreTheWritableBits : Prop :=
  [Reg.crc, .din, .frmCmd, .frmRegid, .rxlen, .fltSpec, .fltInLo, .fltInHi].map writableBits =
    [0x0000FFFF, 0x000000FF, 0x000000FF, 0xFFFFFFFF, 0x0000FFFF, 0x00FFFFFF, 0xFFFFFFFF, 0xFFFFFFFF] ∧
  [Reg.status, .txlen, .payloadLen, .rawLo, .rawHi, .rxCrc, .fltRes, .fltSigLo, .fltSigHi, .fltExpLo, .fltExpHi, .fltF64Lo,
    .fltF64Hi, .cfg].map writableBits = List.replicate 14 0 ∧
  ∀ (s : State) (r : Reg) (w : Word) (es : List Event), r ≠ .cmd → r ≠ .erracc →
    s.pending = .access (writeAccess s.params (.reg r) w) :: es →
    ∃ t, step s = .next t ∧
      readReg t r = (w &&& writableBits r) ||| (readReg s r &&& ~~~ writableBits r) ∧
      (∀ r', r' ≠ r → readReg t r' = readReg s r') ∧
      (∀ i, readLocation t (.txbuf i) = readLocation s (.txbuf i)) ∧
      (∀ i, readLocation t (.rxbuf i) = readLocation s (.rxbuf i)) ∧
      t.params = s.params ∧ t.pending = es ∧ t.returned = s.returned

/-- R105: a host write to ERRACC clears each bit k in 1..6 under a 1 and leaves the others, and changes nothing else. -/
def Obligations.ErraccWriteOneToClear : Prop :=
  ∀ (s : State) (w : Word) (es : List Event),
    s.pending = .access (writeAccess s.params (.reg .erracc) w) :: es →
    ∃ t, step s = .next t ∧ readReg t .erracc = readReg s .erracc &&& ~~~(w &&& 0x0000007E) ∧
      t = { s with pending := es, erracc := t.erracc }

/-- R122, R124, R202: a host write to a read-only register, to TXBUF or to a reserved offset has no effect. -/
def Obligations.IgnoredWritesHaveNoEffect : Prop :=
  ∀ (s : State) (l : Location) (w : Word) (es : List Event), l.wf s.params = true →
    (match l with
      | .reg r => writableBits r = 0 ∧ r ≠ .cmd ∧ r ≠ .erracc
      | .txbuf _ => True
      | .rxbuf _ => False
      | .reserved _ => True) →
    s.pending = .access (writeAccess s.params l w) :: es →
    step s = .next { s with pending := es }

/-- R123: a host write to RXBUF[i] stores w[7:0] there; every other RXBUF byte and every register stays. -/
def Obligations.RxbufWriteStoresOneByte : Prop :=
  ∀ (s : State) (i : Nat) (w : Word) (es : List Event), i < s.params.bufBytes →
    s.pending = .access (writeAccess s.params (.rxbuf i) w) :: es →
    ∃ t, step s = .next t ∧ rxByte t i = w.extractLsb' 0 8 ∧ (∀ j, j ≠ i → rxByte t j = rxByte s j) ∧
      t = { s with pending := es, rxbuf := t.rxbuf }

/-- R210: a host write to a place other than CMD is idempotent: the same write again changes nothing. -/
def Obligations.WritesAreIdempotent : Prop :=
  ∀ (l : Location) (w : Word) (s t : State), l ≠ .reg .cmd → hostWrite l w s = .next t → hostWrite l w t = .next t

/-! ### Reset -/

/-- R102, R121: what the registers and TXBUF read as in the state after reset, with the default BUF_BYTES of R9, which is
the model's choice for State.reset (log 1). -/
def Obligations.ResetStateReadsTheResetValues : Prop :=
  [Reg.cmd, .status, .erracc, .crc, .din, .frmCmd, .frmRegid, .txlen, .rxlen, .payloadLen, .rawLo, .rawHi, .rxCrc,
      .fltSpec, .fltInLo, .fltInHi, .fltRes, .fltSigLo, .fltSigHi, .fltExpLo, .fltExpHi, .fltF64Lo, .fltF64Hi,
      .cfg].map (readReg State.reset) =
    [0, 0, 0, 0x0000FFFF, 0, 0, 0, 0, 0, 0, 0, 0, 0, 0x00170801, 0, 0, 0x00000003, 0, 0, 0, 0, 0, 0, 0x00000100] ∧
  ∀ i : Fin 9, readLocation State.reset (.txbuf i) = 0

/-- R700: the reset input puts every register at its reset value, whatever it held before; CFG stays as it is. That
a reset is one event of the model's list is the model's form (log 7). -/
def Obligations.ResetEventRestoresTheRegisters : Prop :=
  ∀ (s : State) (es : List Event), s.pending = .reset :: es →
    ∃ t, step s = .next t ∧
      (∀ r, r ≠ .cfg → readReg t r =
        if r = .crc then 0x0000FFFF else if r = .fltSpec then 0x00170801 else if r = .fltRes then 0x00000003 else 0) ∧
      readReg t .cfg = readReg s .cfg ∧
      (∀ i : Fin 9, readLocation t (.txbuf i) = 0) ∧
      t.params = s.params ∧ t.pending = es ∧ t.returned = s.returned

/-- R702, with the model's form of the draw (log 2): a reset leaves no RXBUF byte written, and an unwritten byte reads as the
draw of the last reset. -/
def Obligations.UnwrittenRxbufBytesReadTheDraw : Prop :=
  (∀ s i, Memory.get? s.rxbuf i = none → readLocation s (.rxbuf i) = (Config.rxDraw s.draws i).setWidth 32) ∧
  (∀ s t es, s.pending = .reset :: es → step s = .next t → ∀ i, Memory.get? t.rxbuf i = none)

/-! ### The checksum unit -/

/-- R410: NOP writes STATUS <- 0 and nothing else; its word with any RSV bit set is no NOP. -/
def Obligations.NopClearsStatusOnly : Prop :=
  (∀ s : State, exec .nop s = .next { s with statusErr := 0, statusLastop := 0x00 }) ∧
  decode 0x00000000 = .ok .nop ∧
  (∀ w : Word, w.extractLsb' 0 8 = 0 → w.extractLsb' 8 24 ≠ 0 → decode w = .error .reservedBits)

/-- R411: CKS_INIT loads 0xFFFF into CRC whatever CRC held, ends OK, and changes nothing else. -/
def Obligations.CksInitLoadsTheInitialRegister : Prop :=
  decode 0x00000001 = .ok .cksInit ∧
  ∀ s : State, exec .cksInit s = .next { s with crc := 0xFFFF, statusErr := 0, statusLastop := 0x01 }

/-- R412: CKS_BYTE feeds DIN to CRC, ends OK, and changes nothing else (DIN is not consumed); a zero register stays zero under
a zero byte; and after CKS_INIT and the bytes of `bs`, each put in DIN, CRC is their checksum. -/
def Obligations.CksByteFeedsOneByte : Prop :=
  decode 0x00000002 = .ok .cksByte ∧
  (∀ s : State,
    exec .cksByte s = .next { s with crc := crcStep s.crc s.din, statusErr := 0, statusLastop := 0x02 }) ∧
  crcStep 0x0000 0x00 = 0x0000 ∧
  ∀ (bs : List Byte) (s : State),
    ∃ t, bs.foldl (fun o b => match o with
          | .next u => exec .cksByte { u with din := b }
          | stop => stop) (exec .cksInit s) = .next t ∧
      t.crc = checksum bs

/-- R413: CKS_BUF with RXLEN above BUF_BYTES ends in LENGTH_OUT_OF_RANGE with CRC unchanged; else CRC becomes the checksum, from
0xFFFF, of RXBUF[0..RXLEN). -/
def Obligations.CksBufChecksTheBuffer : Prop :=
  decode 0x00000003 = .ok .cksBuf ∧
  ∀ s : State,
    (s.params.bufBytes < s.rxlen.toNat →
      exec .cksBuf s = .next { s with statusErr := 6, statusLastop := 0x03, erracc := s.erracc ||| 0x40 }) ∧
    (s.rxlen.toNat ≤ s.params.bufBytes →
      exec .cksBuf s = .next { s with crc := ((List.range s.rxlen.toNat).map (rxByte s)).foldl crcStep 0xFFFF,
                                      statusErr := 0, statusLastop := 0x03 })

/-- R400: the checksum step is the rule's loop over the bits of the byte, and masking to 16 bits once, after the byte, gives the
same register. -/
def Obligations.CrcStepMasksOncePerByte : Prop :=
  ∀ (r : Half) (b : Byte),
    crcStep r b = [7, 6, 5, 4, 3, 2, 1, 0].foldl
      (fun (x : Half) i => if x.getLsbD 15 ≠ b.getLsbD i then (x <<< 1) ^^^ 0x1021 else x <<< 1) r ∧
    (crcStep r b).toNat = ([7, 6, 5, 4, 3, 2, 1, 0].foldl
      (fun (x : Nat) i => if x.testBit 15 ≠ b.getLsbD i then (x <<< 1) ^^^ 0x1021 else x <<< 1) r.toNat) % 2 ^ 16

/-- R402: the byte-wise form and the table form of the checksum step, and the table entries the rule lists. -/
def Obligations.CrcStepByteWiseAndTableForms : Prop :=
  (∀ (r : Half) (b : Byte),
    crcStep r b = (List.range 8).foldl (fun x _ => if x.getLsbD 15 then (x <<< 1) ^^^ 0x1021 else x <<< 1)
      (r ^^^ (b.setWidth 16 <<< 8)) ∧
    crcStep r b = (r <<< 8) ^^^ crcTable (r.extractLsb' 8 8 ^^^ b)) ∧
  (∀ k : Byte, crcTable k = crcStep (k.setWidth 16 <<< 8) 0x00) ∧
  [0, 1, 2, 3, 4, 5, 6, 7].map crcTable = [0x0000, 0x1021, 0x2042, 0x3063, 0x4084, 0x50A5, 0x60C6, 0x70E7] ∧
  crcTable 0xFF = 0x1EF0

/-- R403: the empty checksum, the checksum of a concatenation, and the residue property. -/
def Obligations.ChecksumConcatenationAndResidue : Prop :=
  checksum [] = 0xFFFF ∧
  (∀ u v : List Byte, checksum (u ++ v) = v.foldl crcStep (checksum u)) ∧
  (∀ r : Half, crcStep (crcStep r (r.extractLsb' 8 8)) (r.extractLsb' 0 8) = 0) ∧
  (∀ u : List Byte, checksum (u ++ beBytes 2 (checksum u).toNat) = 0)

/-- R405: for each byte the checksum step is a bijection of the register. -/
def Obligations.CrcStepIsBijective : Prop :=
  ∀ b : Byte, Function.Bijective (fun r : Half => crcStep r b)

/-- R308 crc_bytes, R412: after the bus accesses of `crc_bytes b0, ..., b(k-1)`, CRC is the checksum of the bytes. -/
def Obligations.CrcBytesListingComputesTheChecksum : Prop :=
  ∀ (bs : List Byte) (s : State) (es : List Event), s.pending = listing s.params (crcBytes bs) ++ es →
    ∃ t, Host.Core.run core (1 + 2 * bs.length) s = .next t ∧ t.crc = checksum bs ∧ t.statusErr = 0 ∧ t.pending = es

/-- R404: the bytes of an integer of `d` hex digits: d/2 bytes of the value, or (d+1)/2 bytes of the value with a zero nibble
appended. -/
def Obligations.IntegerStreamBytes : Prop :=
  ∀ v d : Nat, v < 16 ^ d →
    (intBytes v d).length = (d + 1) / 2 ∧ beValue (intBytes v d) = if d % 2 = 0 then v else 16 * v

/-! ### The frame unit -/

/-- R450, R454: FRM_ENC puts the request frame in TXBUF byte by byte, sets TXLEN to 9 and CRC to the header checksum, ends OK,
and changes nothing else. -/
def Obligations.FrmEncBuildsTheRequestFrame : Prop :=
  decode 0x00000010 = .ok .frmEnc ∧
  ∀ s : State,
    let c := s.frmCmd
    let id := s.frmRegid
    let idBytes := [id.extractLsb' 24 8, id.extractLsb' 16 8, id.extractLsb' 8 8, id.extractLsb' 0 8]
    let k := checksum ([c, 0x04] ++ idBytes)
    ∃ t, exec .frmEnc s = .next t ∧
      t.txbuf.toList = [0x2B, c, 0x04] ++ idBytes ++ [k.extractLsb' 8 8, k.extractLsb' 0 8] ∧
      t = { s with txbuf := t.txbuf, txlen := 9, crc := k, statusErr := 0, statusLastop := 0x10 }

/-- R455, R604: FRM_DEC case by case. With L = RXLEN: L above BUF_BYTES, L below 8, a checksum over RXBUF[0..L-2) other than
the trailing two bytes, and a good checksum, in that order; each with all it writes. -/
def Obligations.FrmDecValidatesAndUnpacks : Prop :=
  decode 0x00000011 = .ok .frmDec ∧
  ∀ s : State,
    let len := s.rxlen.toNat
    let computed := checksum ((List.range (len - 2)).map (rxByte s))
    let trailing : Half := rxByte s (len - 2) ++ rxByte s (len - 1)
    (s.params.bufBytes < len →
      exec .frmDec s = .next { s with statusErr := 6, statusLastop := 0x11, erracc := s.erracc ||| 0x40 }) ∧
    (len ≤ s.params.bufBytes → len < 8 →
      exec .frmDec s = .next { s with statusErr := 1, statusLastop := 0x11, erracc := s.erracc ||| 0x02 }) ∧
    (len ≤ s.params.bufBytes → 8 ≤ len → computed ≠ trailing →
      exec .frmDec s = .next { s with rxCrc := trailing, crc := computed, statusErr := 2, statusLastop := 0x11,
                                      erracc := s.erracc ||| 0x04 }) ∧
    (len ≤ s.params.bufBytes → 8 ≤ len → computed = trailing →
      exec .frmDec s = .next { s with
        rxCrc := trailing, crc := computed,
        payloadLen := BitVec.ofNat 16 (len - 8),
        raw := BitVec.ofNat 64 (beValue ((List.range (len - 8)).map fun k => rxByte s (6 + k))),
        statusErr := 0, statusLastop := 0x11 })

/-- R457: the RawValue of a payload is its big-endian value: 0 when it is empty, below 256 to its length, and not changed by a
leading zero byte; after FRM_DEC ends OK, RAW_LO and RAW_HI hold its bits [31:0] and [63:32]. -/
def Obligations.RawValueArithmetic : Prop :=
  beValue [] = 0 ∧
  (∀ (b : Byte) (p : List Byte), beValue (b :: p) = b.toNat * 256 ^ p.length + beValue p) ∧
  (∀ p : List Byte, beValue p < 256 ^ p.length ∧ beValue (0 :: p) = beValue p) ∧
  ∀ s t : State, exec .frmDec s = .next t → t.statusErr = 0 →
    let v := beValue ((List.range (s.rxlen.toNat - 8)).map fun k => rxByte s (6 + k))
    (readReg t .rawLo).toNat = v % 2 ^ 32 ∧ (readReg t .rawHi).toNat = v / 2 ^ 32 % 2 ^ 32

/-- R453, R455: FRM_DEC on a length the buffer holds ends as the decode function of R453 says of the response bytes: with its
error code, or OK with the low 64 bits of its value. -/
def Obligations.FrmDecFollowsTheDecodeFunction : Prop :=
  ∀ s : State, s.rxlen.toNat ≤ s.params.bufBytes →
    ∃ t, exec .frmDec s = .next t ∧
      match decodeResponse ((List.range s.rxlen.toNat).map (rxByte s)) with
      | .ok v => t.statusErr = 0 ∧ t.raw = BitVec.ofNat 64 v
      | .error e => t.statusErr = errCode e ∧ t.raw = s.raw

/-- R456: FRM_DEC checks only the length and the checksum, and its result does not depend on the last request. -/
def Obligations.FrmDecMakesNoOtherCheck : Prop :=
  (∀ s t : State, exec .frmDec s = .next t →
    (t.statusErr = 0 ↔ 8 ≤ s.rxlen.toNat ∧ s.rxlen.toNat ≤ s.params.bufBytes ∧
      checksum ((List.range (s.rxlen.toNat - 2)).map (rxByte s)) =
        rxByte s (s.rxlen.toNat - 2) ++ rxByte s (s.rxlen.toNat - 1))) ∧
  (∀ (s t : State) (c : Byte) (id : Word) (f : Vector Byte 9) (n : BitVec 4), exec .frmDec s = .next t →
    exec .frmDec { s with frmCmd := c, frmRegid := id, txbuf := f, txlen := n } =
      .next { t with frmCmd := c, frmRegid := id, txbuf := f, txlen := n })

/-- R458: a 6-byte header, any payload and their checksum decode to the payload's value; a request without its start marker
decodes with RawValue 0. -/
def Obligations.ResponseRoundTrip : Prop :=
  (∀ h p : List Byte, h.length = 6 →
    decodeResponse (h ++ p ++ beBytes 2 (checksum (h ++ p)).toNat) = .ok (beValue p)) ∧
  (∀ (c : Byte) (id : Word), decodeResponse ((encodeFrame c id).drop 1) = .ok 0)

/-- R458 on the machine: FRM_DEC on a buffer that holds a 6-byte header, a payload and their checksum ends OK with the
payload's length and value. -/
def Obligations.FrmDecAcceptsWellFormedResponses : Prop :=
  ∀ (s : State) (h p : List Byte), h.length = 6 → s.rxlen.toNat = 8 + p.length → s.rxlen.toNat ≤ s.params.bufBytes →
    (∀ k < s.rxlen.toNat, rxByte s k = (h ++ p ++ beBytes 2 (checksum (h ++ p)).toNat).getD k 0) →
    ∃ t, exec .frmDec s = .next t ∧ t.statusErr = 0 ∧ t.payloadLen.toNat = p.length ∧
      t.raw = BitVec.ofNat 64 (beValue p) ∧ t.crc = checksum (h ++ p) ∧ t.rxCrc = checksum (h ++ p) ∧
      t.erracc = s.erracc

/-- R405: where FRM_DEC ends OK, changing any one byte of the response (so also any single bit) makes it end in
CHECKSUM_MISMATCH. -/
def Obligations.SingleByteCorruptionIsDetected : Prop :=
  ∀ (s t : State) (i : Nat) (b : Byte), exec .frmDec s = .next t → t.statusErr = 0 →
    i < s.rxlen.toNat → b ≠ rxByte s i →
    ∃ u, exec .frmDec (setRxByte i b s) = .next u ∧ u.statusErr = 2

/-! ### The float unit -/

/-- R501, R502: FLT_DEC refuses a spec with SB other than 1 or more than 64 bits, then an input of more than W bits; each
writes STATUS and one ERRACC bit and nothing else. Every other spec and input ends OK; at W = 64 every input does. -/
def Obligations.FltDecRejectsBadSpecThenBadInput : Prop :=
  ∀ s : State,
    let w := s.fltSb.toNat + s.fltEb.toNat + s.fltMb.toNat
    (s.fltSb ≠ 1 ∨ 64 < w →
      exec .fltDec s = .next { s with statusErr := 4, statusLastop := 0x20, erracc := s.erracc ||| 0x10 }) ∧
    (s.fltSb = 1 → w ≤ 64 → 2 ^ w ≤ s.fltIn.toNat →
      exec .fltDec s = .next { s with statusErr := 3, statusLastop := 0x20, erracc := s.erracc ||| 0x08 }) ∧
    (s.fltSb = 1 → (w ≤ 64 ∧ s.fltIn.toNat < 2 ^ w) ∨ w = 64 →
      ∃ t, exec .fltDec s = .next t ∧ t.statusErr = 0 ∧ t.erracc = s.erracc)

/-- R503, R505, R509: an all-ones exponent field gives NAN under an all-ones mantissa field and a signed INFINITY under any
other; SIG and Q are 0, the sign is kept in FLT_RES, and FLT_F64 is the canonical NaN or the signed Infinity. -/
def Obligations.FltDecSpecialValues : Prop :=
  ∀ s : State,
    let eb := s.fltEb.toNat
    let mb := s.fltMb.toNat
    let n := s.fltIn.toNat
    let sign := n.testBit (eb + mb)
    let nan := n % 2 ^ mb = 2 ^ mb - 1
    s.fltSb = 1 → 1 + eb + mb ≤ 64 → n < 2 ^ (1 + eb + mb) → n / 2 ^ mb % 2 ^ eb = 2 ^ eb - 1 →
    exec .fltDec s = .next { s with
      fltClass := if nan then .nan else .infinity
      fltSign := sign, fltSig := 0, fltExp := 0
      fltF64 := if nan then 0x7FF8000000000000 else if sign then 0xFFF0000000000000 else 0x7FF0000000000000
      statusErr := 0, statusLastop := 0x20 }

/-- R503, R506, R508, R509: any other exponent field gives FINITE with the sign, SIG = imp × 2^MB + mf and
Q = ef − bias − MB, and FLT_F64 the model's binary64 rounding of the exact value (log 9). -/
def Obligations.FltDecFiniteValues : Prop :=
  ∀ s : State,
    let eb := s.fltEb.toNat
    let mb := s.fltMb.toNat
    let n := s.fltIn.toNat
    let sign := n.testBit (eb + mb)
    let ef := n / 2 ^ mb % 2 ^ eb
    let mf := n % 2 ^ mb
    let sig := (if ef = 0 then 0 else 1) * 2 ^ mb + mf
    let q : Int := ef - (2 ^ (eb - 1) - 1) - mb
    s.fltSb = 1 → 1 + eb + mb ≤ 64 → n < 2 ^ (1 + eb + mb) → ef ≠ 2 ^ eb - 1 →
    exec .fltDec s = .next { s with
      fltClass := .finite, fltSign := sign
      fltSig := BitVec.ofNat 64 sig, fltExp := BitVec.ofInt 64 q, fltF64 := round64 sign sig q
      statusErr := 0, statusLastop := 0x20 }

/-- R508: the registers of a finite result hold the sign, SIG = imp × 2^MB + mf and Q = ef − bias − MB, which fit their 64 bits
and give the value of the source's formula exactly, as a rational. -/
def Obligations.FiniteResultIsTheExactValue : Prop :=
  ∀ s : State,
    let eb := s.fltEb.toNat
    let mb := s.fltMb.toNat
    let n := s.fltIn.toNat
    let ef := n / 2 ^ mb % 2 ^ eb
    let mf := n % 2 ^ mb
    s.fltSb = 1 → 1 + eb + mb ≤ 64 → n < 2 ^ (1 + eb + mb) → ef ≠ 2 ^ eb - 1 →
    ∃ t, exec .fltDec s = .next t ∧ t.fltClass = .finite ∧
      t.fltSign = n.testBit (eb + mb) ∧
      t.fltSig.toNat = (if ef = 0 then 0 else 1) * 2 ^ mb + mf ∧
      t.fltExp.toInt = (ef : Int) - (2 ^ (eb - 1) - 1) - mb ∧
      exactValue t.fltSign t.fltSig.toNat t.fltExp.toInt =
        (if n.testBit (eb + mb) then (-1 : ℚ) else 1) * (2 : ℚ) ^ ((ef : Int) - (2 ^ (eb - 1) - 1)) *
          ((if ef = 0 then (0 : ℚ) else 1) + mf / 2 ^ mb) ∧
      t.fltSig.toNat < 2 ^ (mb + 1) ∧ 1 ≤ eb ∧ mb ≤ 62 ∧ |t.fltExp.toInt| < 2 ^ 62 + 63

/-- R13, R509: the binary64 view is the nearest finite binary64 value, ties to even, of the sign of the exact value; a magnitude
at or beyond the rounding bound of the largest finite value, and no other, gives Infinity. The binary64 encoding in
the model's terms is general knowledge (log 9). -/
def Obligations.Round64IsNearestTiesToEven : Prop :=
  ∀ (sign : Bool) (sig : Nat) (q : Int),
    let d := round64 sign sig q
    let x := exactValue sign sig q
    d.msb = sign ∧
    (f64Finite d → ∀ y, f64Finite y →
      |x - f64Value d| ≤ |x - f64Value y| ∧
      (|x - f64Value d| = |x - f64Value y| → f64Value y ≠ f64Value d → d.getLsbD 0 = false)) ∧
    (¬ f64Finite d ↔ (2 : ℚ) ^ 1024 - 2 ^ 970 ≤ |x|) ∧
    (¬ f64Finite d → d.setWidth 63 = 0x7FF0000000000000)

/-- R509: under the default spec every finite result is exact in binary64 (its encoding is general knowledge, log 9). -/
def Obligations.DefaultSpecNeedsNoRounding : Prop :=
  ∀ s : State, s.fltSb = 1 → s.fltEb = 8 → s.fltMb = 23 → s.fltIn.toNat < 2 ^ 32 →
    s.fltIn.toNat / 2 ^ 23 % 2 ^ 8 ≠ 255 →
    ∃ t, exec .fltDec s = .next t ∧ t.fltClass = .finite ∧ f64Finite t.fltF64 ∧
      f64Value t.fltF64 = exactValue t.fltSign t.fltSig.toNat t.fltExp.toInt

/-- R511: with no exponent bits no result is finite, with no mantissa bits none is an Infinity, and at width 64 no input is out
of range. -/
def Obligations.DegenerateLayouts : Prop :=
  ∀ s : State, s.fltSb = 1 → 1 + s.fltEb.toNat + s.fltMb.toNat ≤ 64 →
    s.fltIn.toNat < 2 ^ (1 + s.fltEb.toNat + s.fltMb.toNat) ∨ 1 + s.fltEb.toNat + s.fltMb.toNat = 64 →
    ∃ t, exec .fltDec s = .next t ∧ t.statusErr = 0 ∧ t.fltClass ≠ .none ∧
      (s.fltEb = 0 → t.fltClass ≠ .finite) ∧ (s.fltMb = 0 → t.fltClass ≠ .infinity)

/-! ### Errors -/

/-- R605: a command that ends OK writes STATUS and leaves ERRACC; one that ends in an error writes STATUS and one ERRACC bit and
nothing else, but for CRC and RX_CRC of FRM_DEC on CHECKSUM_MISMATCH. -/
def Obligations.CommandsEndByTheErrorRule : Prop :=
  ∀ (i : Instr) (s : State), ∃ t, exec i s = .next t ∧ t.statusLastop = opcode i ∧
    ((t.statusErr = 0 ∧ t.erracc = s.erracc) ∨
      ∃ e : BlockError, t.statusErr = errCode e ∧ errCode e ≠ 0 ∧
        t.erracc = s.erracc ||| BitVec.ofNat 7 (2 ^ (errCode e).toNat) ∧
        t = { s with statusErr := t.statusErr, statusLastop := t.statusLastop, erracc := t.erracc, crc := t.crc,
                     rxCrc := t.rxCrc } ∧
        (i ≠ .frmDec ∨ e ≠ .checksumMismatch → t.crc = s.crc ∧ t.rxCrc = s.rxCrc))

/-- R602: NOP, CKS_INIT, CKS_BYTE and FRM_ENC always end OK. -/
def Obligations.CommandsThatNeverFail : Prop :=
  ∀ (i : Instr) (s : State), i = .nop ∨ i = .cksInit ∨ i = .cksByte ∨ i = .frmEnc →
    ∃ t, exec i s = .next t ∧ t.statusErr = 0 ∧ t.erracc = s.erracc

/-- R609: what STATUS holds changes no command, and what ERRACC holds changes only ERRACC, to which a command adds the same bits
whatever it held. -/
def Obligations.EarlierErrorsChangeNoCommand : Prop :=
  ∀ (i : Instr) (s : State),
    (∀ e l, exec i { s with statusErr := e, statusLastop := l } = exec i s) ∧
    ∃ (t : State) (m : BitVec 7), ∀ acc, exec i { s with erracc := acc } = .next { t with erracc := acc ||| m }

/-- R105, R606: no step clears an ERRACC bit but a host write of 1 to that bit, and a reset. -/
def Obligations.ErraccBitsAreSticky : Prop :=
  ∀ (s t : State) (k : Nat), step s = .next t → s.erracc.getLsbD k = true → t.erracc.getLsbD k = false →
    (∃ w es, s.pending = .access (writeAccess s.params (.reg .erracc) w) :: es ∧ w.getLsbD k = true) ∨
    ∃ es, s.pending = .reset :: es

/-! ### Frames -/

/-- R706: no command writes an operand register or an RXBUF byte, and no event but a CMD write and a reset changes a result
register. -/
def Obligations.OperandsPersistAndResultsStay : Prop :=
  (∀ (i : Instr) (s t : State), exec i s = .next t →
    t.din = s.din ∧ t.frmCmd = s.frmCmd ∧ t.frmRegid = s.frmRegid ∧ t.rxlen = s.rxlen ∧ t.fltSb = s.fltSb ∧
    t.fltEb = s.fltEb ∧ t.fltMb = s.fltMb ∧ t.fltIn = s.fltIn ∧ t.rxbuf = s.rxbuf ∧ ∀ k, rxByte t k = rxByte s k) ∧
  (∀ s t : State, step s = .next t →
    (∀ w es, s.pending ≠ .access (cmdWrite s.params w) :: es) → (∀ es, s.pending ≠ .reset :: es) →
    t.statusErr = s.statusErr ∧ t.statusLastop = s.statusLastop ∧ t.txlen = s.txlen ∧ t.txbuf = s.txbuf ∧
    t.payloadLen = s.payloadLen ∧ t.raw = s.raw ∧ t.rxCrc = s.rxCrc ∧ t.fltClass = s.fltClass ∧
    t.fltSign = s.fltSign ∧ t.fltSig = s.fltSig ∧ t.fltExp = s.fltExp ∧ t.fltF64 = s.fltF64)

/-- The frame of NOP, CKS_INIT, CKS_BYTE and CKS_BUF: only CRC (not of NOP), STATUS and, for CKS_BUF, ERRACC may change; every
RXBUF byte reads as before. -/
def Obligations.ChecksumCommandsFrame : Prop :=
  ∀ (i : Instr) (s t : State), i = .nop ∨ i = .cksInit ∨ i = .cksByte ∨ i = .cksBuf → exec i s = .next t →
    t = { s with crc := t.crc, statusErr := t.statusErr, statusLastop := t.statusLastop, erracc := t.erracc } ∧
    (i = .nop → t.crc = s.crc) ∧ (i ≠ .cksBuf → t.erracc = s.erracc) ∧ ∀ k, rxByte t k = rxByte s k

/-- The frame of FRM_ENC and FRM_DEC: FRM_ENC may change TXBUF, TXLEN, CRC and STATUS; FRM_DEC may change RX_CRC, CRC,
PAYLOAD_LEN, RAW, STATUS and ERRACC; every RXBUF byte reads as before. -/
def Obligations.FrameCommandsFrame : Prop :=
  (∀ s t : State, exec .frmEnc s = .next t →
    t = { s with txbuf := t.txbuf, txlen := t.txlen, crc := t.crc, statusErr := t.statusErr,
                 statusLastop := t.statusLastop } ∧ ∀ k, rxByte t k = rxByte s k) ∧
  (∀ s t : State, exec .frmDec s = .next t →
    t = { s with rxCrc := t.rxCrc, crc := t.crc, payloadLen := t.payloadLen, raw := t.raw, statusErr := t.statusErr,
                 statusLastop := t.statusLastop, erracc := t.erracc } ∧ ∀ k, rxByte t k = rxByte s k)

/-- The frame of FLT_DEC: only FLT_RES, FLT_SIG, FLT_EXP, FLT_F64, STATUS and ERRACC may change; every RXBUF byte reads as
before. -/
def Obligations.FloatCommandFrame : Prop :=
  ∀ s t : State, exec .fltDec s = .next t →
    t = { s with fltClass := t.fltClass, fltSign := t.fltSign, fltSig := t.fltSig, fltExp := t.fltExp,
                 fltF64 := t.fltF64, statusErr := t.statusErr, statusLastop := t.statusLastop, erracc := t.erracc } ∧
    ∀ k, rxByte t k = rxByte s k

/-! ### Whole-machine rules -/

/-- R122: a step changes TXBUF or TXLEN only if it runs FRM_ENC or is a reset. -/
def Obligations.OnlyFrmEncWritesTheTransmitBuffer : Prop :=
  ∀ s t : State, step s = .next t → t.txbuf ≠ s.txbuf ∨ t.txlen ≠ s.txlen →
    (∃ es, s.pending = .access (cmdWrite s.params 0x00000010) :: es) ∨ ∃ es, s.pending = .reset :: es

/-- R123: a step changes what RXBUF[k] reads as only if it is a host write to RXBUF[k] or a reset. -/
def Obligations.OnlyTheHostWritesTheReceiveBuffer : Prop :=
  ∀ (s t : State) (k : Nat), step s = .next t → rxByte t k ≠ rxByte s k →
    (∃ w es, s.pending = .access (writeAccess s.params (.rxbuf k) w) :: es) ∨ ∃ es, s.pending = .reset :: es

/-- R121, R127: no step changes BLOCK_BASE or BUF_BYTES, which State carries (log 1), or what CFG reads as. -/
def Obligations.ParametersNeverChange : Prop :=
  ∀ s t : State, step s = .next t → t.params = s.params ∧ readReg t .cfg = readReg s .cfg

/-- The invariant of Sys2Proof/Safety.lean holds in the state after reset. That the parameters are legal and that a payload fits
the buffer there rests on the model's BLOCK_BASE 0 and BUF_BYTES 256 (DESIGN CHOICE, log 1); the form of RXBUF is the model's
(DESIGN CHOICE, log 3). -/
def Obligations.BlockInvHoldsAtReset : Prop := BlockInv State.reset

/-- Every step keeps the invariant of Sys2Proof/Safety.lean: legal parameters, RXBUF in its one form, a STATUS that a command
can leave, ERRACC bit 0 clear, TXBUF empty or a whole request frame, a payload that fits, and float results that agree. The parameters in State
and the form of RXBUF are the model's (log 1, log 3). -/
def Obligations.EveryStepKeepsBlockInv : Prop :=
  ∀ s t : State, BlockInv s → step s = .next t → BlockInv t
end

