-- ==== Sys2Proof/Laws/Bits.lean ====
section
/-! SUPPORT. Laws of the big-endian byte sequences and of the halves of 64-bit quantities (spec/00_scope.md R11,
spec/20_memory.md R207). -/

namespace Sys2Proof.Machine

theorem beValue_foldl (bs : List Byte) (v : Nat) :
    bs.foldl (fun v b => v * 256 + b.toNat) v = v * 256 ^ bs.length + beValue bs := by
  induction bs generalizing v with
  | nil => simp [beValue]
  | cons b bs ih =>
    have h := ih b.toNat
    simp only [beValue, List.foldl_cons, List.length_cons, Nat.zero_mul, Nat.zero_add] at h ⊢
    rw [ih, h, pow_succ]
    simp only [beValue]
    ring

@[simp] theorem beValue_nil : beValue [] = 0 := rfl

theorem beValue_cons (b : Byte) (bs : List Byte) : beValue (b :: bs) = b.toNat * 256 ^ bs.length + beValue bs := by
  simpa [beValue] using beValue_foldl bs b.toNat

theorem beValue_append (us vs : List Byte) : beValue (us ++ vs) = beValue us * 256 ^ vs.length + beValue vs := by
  simpa [beValue] using beValue_foldl vs (beValue us)

theorem beValue_bound (bs : List Byte) : beValue bs + 1 ≤ 256 ^ bs.length := by
  induction bs with
  | nil => simp
  | cons b bs ih =>
    rw [beValue_cons, List.length_cons, pow_succ]
    have hb := b.isLt
    have : b.toNat * 256 ^ bs.length + 256 ^ bs.length ≤ 256 * 256 ^ bs.length := by
      rw [← Nat.succ_mul]; exact Nat.mul_le_mul_right _ hb
    omega

@[simp] theorem beBytes_length (k v : Nat) : (beBytes k v).length = k := by
  induction k with
  | zero => rfl
  | succ k ih => simp [beBytes, ih]

/-- The bytes of a value give its low `k` bytes back. -/
theorem beValue_beBytes_mod (k v : Nat) : beValue (beBytes k v) = v % 256 ^ k := by
  induction k with
  | zero => simp [beBytes, Nat.mod_one]
  | succ k ih =>
    rw [beBytes, beValue_cons, ih, beBytes_length, BitVec.toNat_ofNat, show 256 ^ (k + 1) = 256 ^ k * 256 from rfl, Nat.mod_mul, Nat.add_comm,
      Nat.mul_comm]

theorem beValue_beBytes {k v : Nat} (h : v < 256 ^ k) : beValue (beBytes k v) = v := by
  rw [beValue_beBytes_mod, Nat.mod_eq_of_lt h]

/-- The two bytes of a 16-bit value, the high one first. -/
theorem beBytes_two (v : Half) : beBytes 2 v.toNat = [v.extractLsb' 8 8, v.extractLsb' 0 8] := by
  simp only [beBytes, List.cons.injEq, and_true]
  constructor <;> apply BitVec.eq_of_toNat_eq <;> simp [Nat.shiftRight_eq_div_pow]

/-- The four bytes of a 32-bit value, the most significant first. -/
theorem beBytes_four (v : Word) :
    beBytes 4 v.toNat = [v.extractLsb' 24 8, v.extractLsb' 16 8, v.extractLsb' 8 8, v.extractLsb' 0 8] := by
  simp only [beBytes, List.cons.injEq, and_true]
  refine ⟨?_, ?_, ?_, ?_⟩ <;> apply BitVec.eq_of_toNat_eq <;> simp [Nat.shiftRight_eq_div_pow]

/-- Two bytes as one 16-bit value. -/
theorem beValue_pair (a b : Byte) : beValue [a, b] = (a ++ b : Half).toNat := by
  have hb := b.isLt
  rw [beValue_cons, beValue_cons, BitVec.toNat_append, Nat.shiftLeft_eq, ← Nat.shiftLeft_eq,
    ← Nat.shiftLeft_add_eq_or_of_lt hb, Nat.shiftLeft_eq]
  simp

theorem loWord_toNat (d : DWord) : (loWord d).toNat = d.toNat % 2 ^ 32 := by
  simp [loWord]

theorem hiWord_toNat (d : DWord) : (hiWord d).toNat = d.toNat / 2 ^ 32 := by
  have := d.isLt
  simp only [hiWord, BitVec.extractLsb'_toNat, Nat.shiftRight_eq_div_pow]
  omega

theorem joinWords_getLsbD (h l : Word) (i : Nat) :
    (joinWords h l).getLsbD i = if i < 32 then l.getLsbD i else h.getLsbD (i - 32) :=
  BitVec.getLsbD_append

@[simp] theorem loWord_joinWords (h l : Word) : loWord (joinWords h l) = l := by
  apply BitVec.eq_of_getLsbD_eq
  intro i hi
  rw [loWord, BitVec.getLsbD_extractLsb', joinWords_getLsbD]
  simp [hi]

@[simp] theorem hiWord_joinWords (h l : Word) : hiWord (joinWords h l) = h := by
  apply BitVec.eq_of_getLsbD_eq
  intro i hi
  rw [hiWord, BitVec.getLsbD_extractLsb', joinWords_getLsbD]
  simp [hi]

end Sys2Proof.Machine
end

