-- ==== Sys2Proof/Laws/Flags.lean ====
section
/-! SUPPORT. Laws of the error codes and of ERRACC (spec/60_exceptions.md R601, R605; spec/10_state.md R105). -/

namespace Sys2Proof.Machine

/-- The ERRACC bit of an error is 2 to its code. -/
theorem errBit_eq (e : BlockError) : errBit e = BitVec.ofNat 7 (2 ^ (errCode e).toNat) := by
  cases e <;> decide

theorem errCode_ne_zero (e : BlockError) : errCode e ≠ 0 := by
  cases e <;> decide

theorem errCode_injective : Function.Injective errCode := by
  intro a b h
  cases a <;> cases b <;> first | rfl | exact absurd h (by decide)

/-- No error's bit is bit 0. -/
theorem errBit_getLsbD_zero (e : BlockError) : (errBit e).getLsbD 0 = false := by
  cases e <;> decide

/-- An error clears no bit of ERRACC. -/
theorem erraccSet_getLsbD {acc : BitVec 7} {k : Nat} (e : BlockError) (h : acc.getLsbD k = true) :
    (erraccSet acc e).getLsbD k = true := by
  simp [erraccSet, h]

/-- A host write clears exactly the bits 1 to 6 under a 1. -/
theorem erraccClear_getLsbD (acc : BitVec 7) (w : Word) (k : Nat) :
    (erraccClear acc w).getLsbD k = (acc.getLsbD k && !(w.getLsbD k && decide (1 ≤ k))) := by
  by_cases hk : k < 7
  · have h : (0x7E : BitVec 7).getLsbD k = decide (1 ≤ k) := by
      interval_cases k <;> decide
    rw [erraccClear, BitVec.getLsbD_and, BitVec.getLsbD_not, BitVec.getLsbD_and, BitVec.getLsbD_setWidth, h]
    simp [hk]
  · rw [BitVec.getLsbD_of_ge _ _ (by omega), BitVec.getLsbD_of_ge acc _ (by omega)]
    rfl

end Sys2Proof.Machine
end

