-- ==== Sys2Proof/Laws/Checksum.lean ====
section
/-! SUPPORT. Laws of the checksum (spec/40_checksum.md): a step is linear over exclusive or, so what a changed byte does to
the register does not depend on the register. -/

namespace Sys2Proof.Machine

/-- The polynomial where a bit is set. -/
def polyIf (t : Bool) : Half := if t then Config.crcPoly else 0

theorem crcBit_eq (r : Half) (i : Bool) : crcBit r i = (r <<< 1) ^^^ polyIf (r.getLsbD 15 ^^ i) := by
  unfold crcBit polyIf
  split <;> simp

theorem polyIf_xor (a b : Bool) : polyIf (a ^^ b) = polyIf a ^^^ polyIf b := by
  cases a <;> cases b <;> simp [polyIf]

/-- One input bit is linear in the register and the bit together (R405). -/
theorem crcBit_xor (r r' : Half) (i i' : Bool) : crcBit (r ^^^ r') (i ^^ i') = crcBit r i ^^^ crcBit r' i' := by
  have h : ((r ^^^ r').getLsbD 15 ^^ (i ^^ i')) = ((r.getLsbD 15 ^^ i) ^^ (r'.getLsbD 15 ^^ i')) := by
    rw [BitVec.getLsbD_xor]
    cases r.getLsbD 15 <;> cases r'.getLsbD 15 <;> cases i <;> cases i' <;> rfl
  rw [crcBit_eq, crcBit_eq, crcBit_eq, h, polyIf_xor, BitVec.shiftLeft_xor_distrib]
  ac_rfl

theorem crcBits_xor (is : List Nat) (r r' : Half) (b b' : Byte) :
    is.foldl (fun r i => crcBit r ((b ^^^ b').getLsbD i)) (r ^^^ r') =
      is.foldl (fun r i => crcBit r (b.getLsbD i)) r ^^^ is.foldl (fun r i => crcBit r (b'.getLsbD i)) r' := by
  induction is generalizing r r' with
  | nil => rfl
  | cons i is ih => rw [List.foldl_cons, List.foldl_cons, List.foldl_cons, BitVec.getLsbD_xor, crcBit_xor, ih]

/-- A checksum step is linear in the register and the byte together (R405). -/
theorem crcStep_xor (r r' : Half) (b b' : Byte) : crcStep (r ^^^ r') (b ^^^ b') = crcStep r b ^^^ crcStep r' b' :=
  crcBits_xor _ r r' b b'

theorem crcStep_zero : crcStep 0 0 = 0 := by decide

/-- A step from a register and a byte is the step of the register alone and the step of the byte alone. -/
theorem crcStep_split (r : Half) (b : Byte) : crcStep r b = crcStep r 0 ^^^ crcStep 0 b := by
  simpa using crcStep_xor r 0 0 b

/-- A step from a register and a byte is the step of the zero byte from the register with the byte put in its high half
(R402). -/
theorem crcStep_shift (r : Half) (b : Byte) : crcStep r b = crcStep (r ^^^ (b.setWidth 16 <<< 8)) 0 := by
  have h : ∀ k : Fin 256, crcStep 0 (BitVec.ofFin k) = crcStep ((BitVec.ofFin k : Byte).setWidth 16 <<< 8) 0 := by decide +kernel
  have h2 : crcStep (r ^^^ (b.setWidth 16 <<< 8)) 0 = crcStep r 0 ^^^ crcStep (b.setWidth 16 <<< 8) 0 :=
    crcStep_xor r (b.setWidth 16 <<< 8) 0 0
  rw [crcStep_split, h2]
  exact congrArg (crcStep r 0 ^^^ ·) (h b.toFin)

/-- A step of the zero byte only shifts a register whose high half is zero. -/
theorem crcStep_lowByte (b : Byte) : crcStep (b.setWidth 16) 0 = b.setWidth 16 <<< 8 := by
  have h : ∀ k : Fin 256, crcStep ((BitVec.ofFin k : Byte).setWidth 16) 0 = (BitVec.ofFin k : Byte).setWidth 16 <<< 8 := by
    decide +kernel
  exact h b.toFin

/-- The polynomial's bit 0 is set, so a zero input bit loses nothing of the register. -/
theorem crcBit_eq_zero {r : Half} (h : crcBit r false = 0) : r = 0 := by
  have h0 := congrArg (fun v => v.getLsbD 0) h
  rw [crcBit_eq, Bool.xor_false] at h h0
  have h15 : r.getLsbD 15 = false := by
    cases hr : r.getLsbD 15
    · rfl
    · rw [hr] at h0
      simp [polyIf, Config.crcPoly] at h0
  rw [h15] at h
  apply BitVec.eq_of_getLsbD_eq
  intro i hi
  by_cases h' : i = 15
  · subst h'; simpa using h15
  · have := congrArg (fun v => v.getLsbD (i + 1)) h
    have hi' : i + 1 < 16 := by omega
    simpa [polyIf, hi', hi, BitVec.getLsbD_eq_getElem] using this

/-- A step of the zero byte loses nothing of the register. -/
theorem crcStep_eq_zero {r : Half} (h : crcStep r 0 = 0) : r = 0 := by
  have hb : ∀ i : Nat, (0 : Byte).getLsbD i = false := fun i => by simp
  simp only [crcStep, List.foldl_cons, List.foldl_nil, hb] at h
  exact crcBit_eq_zero (crcBit_eq_zero (crcBit_eq_zero (crcBit_eq_zero (crcBit_eq_zero (crcBit_eq_zero
    (crcBit_eq_zero (crcBit_eq_zero h)))))))

theorem xor_eq_zero {n : Nat} {a b : BitVec n} : a ^^^ b = 0 ↔ a = b := BitVec.xor_eq_zero_iff

/-- For each byte a step is injective in the register (R405). -/
theorem crcStep_injective (b : Byte) : Function.Injective fun r : Half => crcStep r b := by
  intro r r' h
  have h' : crcStep (r ^^^ r') (b ^^^ b) = 0 := by rw [crcStep_xor]; exact xor_eq_zero.2 h
  rw [BitVec.xor_self] at h'
  exact xor_eq_zero.1 (crcStep_eq_zero h')

/-- From the zero register only the zero byte gives zero. -/
theorem crcStep_zero_byte : ∀ b : Byte, crcStep 0 b = 0 → b = 0 := by
  have h : ∀ k : Fin 256, crcStep 0 (BitVec.ofFin k) = 0 → k = 0 := by decide +kernel
  intro b hb
  exact congrArg BitVec.ofFin (h b.toFin hb)

/-- For each register a step is injective in the byte. -/
theorem crcStep_byte_injective (r : Half) : Function.Injective (crcStep r) := by
  intro b b' h
  have h' : crcStep (r ^^^ r) (b ^^^ b') = 0 := by rw [crcStep_xor]; exact xor_eq_zero.2 h
  rw [BitVec.xor_self] at h'
  exact xor_eq_zero.1 (crcStep_zero_byte _ h')

/-- A running checksum is injective in the register it starts from. -/
theorem foldl_crcStep_injective (bs : List Byte) : Function.Injective fun r : Half => bs.foldl crcStep r := by
  induction bs with
  | nil => exact fun _ _ h => h
  | cons b bs ih => exact fun r r' h => crcStep_injective b (ih h)

/-- Changing one byte of a sequence changes its running checksum. -/
theorem foldl_crcStep_set_ne {bs : List Byte} {i : Nat} {b : Byte} (hi : i < bs.length) (hb : b ≠ bs[i]) (r : Half) :
    (bs.set i b).foldl crcStep r ≠ bs.foldl crcStep r := by
  induction bs generalizing i r with
  | nil => simp at hi
  | cons c bs ih =>
    cases i with
    | zero => exact fun h => hb (crcStep_byte_injective r (foldl_crcStep_injective bs h))
    | succ i => exact ih (by simpa using hi) (by simpa using hb) (crcStep r c)

end Sys2Proof.Machine
end

