-- ==== Sys2Proof/Laws/State.lean ====
section
/-! SUPPORT. What each named update of State does to each field: one lemma per field per update, so that no proof unfolds a
record update. -/

namespace Sys2Proof.Machine

variable (s : State)

@[simp] theorem finish_params (op : Byte) : (finish op s).params = s.params := rfl
@[simp] theorem finish_statusErr (op : Byte) : (finish op s).statusErr = okCode := rfl
@[simp] theorem finish_statusLastop (op : Byte) : (finish op s).statusLastop = op := rfl
@[simp] theorem finish_erracc (op : Byte) : (finish op s).erracc = s.erracc := rfl
@[simp] theorem finish_crc (op : Byte) : (finish op s).crc = s.crc := rfl
@[simp] theorem finish_din (op : Byte) : (finish op s).din = s.din := rfl
@[simp] theorem finish_frmCmd (op : Byte) : (finish op s).frmCmd = s.frmCmd := rfl
@[simp] theorem finish_frmRegid (op : Byte) : (finish op s).frmRegid = s.frmRegid := rfl
@[simp] theorem finish_txlen (op : Byte) : (finish op s).txlen = s.txlen := rfl
@[simp] theorem finish_txbuf (op : Byte) : (finish op s).txbuf = s.txbuf := rfl
@[simp] theorem finish_rxlen (op : Byte) : (finish op s).rxlen = s.rxlen := rfl
@[simp] theorem finish_rxbuf (op : Byte) : (finish op s).rxbuf = s.rxbuf := rfl
@[simp] theorem finish_payloadLen (op : Byte) : (finish op s).payloadLen = s.payloadLen := rfl
@[simp] theorem finish_raw (op : Byte) : (finish op s).raw = s.raw := rfl
@[simp] theorem finish_rxCrc (op : Byte) : (finish op s).rxCrc = s.rxCrc := rfl
@[simp] theorem finish_fltSb (op : Byte) : (finish op s).fltSb = s.fltSb := rfl
@[simp] theorem finish_fltEb (op : Byte) : (finish op s).fltEb = s.fltEb := rfl
@[simp] theorem finish_fltMb (op : Byte) : (finish op s).fltMb = s.fltMb := rfl
@[simp] theorem finish_fltIn (op : Byte) : (finish op s).fltIn = s.fltIn := rfl
@[simp] theorem finish_fltClass (op : Byte) : (finish op s).fltClass = s.fltClass := rfl
@[simp] theorem finish_fltSign (op : Byte) : (finish op s).fltSign = s.fltSign := rfl
@[simp] theorem finish_fltSig (op : Byte) : (finish op s).fltSig = s.fltSig := rfl
@[simp] theorem finish_fltExp (op : Byte) : (finish op s).fltExp = s.fltExp := rfl
@[simp] theorem finish_fltF64 (op : Byte) : (finish op s).fltF64 = s.fltF64 := rfl
@[simp] theorem finish_draws (op : Byte) : (finish op s).draws = s.draws := rfl
@[simp] theorem finish_pending (op : Byte) : (finish op s).pending = s.pending := rfl
@[simp] theorem finish_returned (op : Byte) : (finish op s).returned = s.returned := rfl

@[simp] theorem raiseError_params (op : Byte) (e : BlockError) : (raiseError op e s).params = s.params := rfl
@[simp] theorem raiseError_statusErr (op : Byte) (e : BlockError) : (raiseError op e s).statusErr = errCode e := rfl
@[simp] theorem raiseError_statusLastop (op : Byte) (e : BlockError) : (raiseError op e s).statusLastop = op := rfl
@[simp] theorem raiseError_erracc (op : Byte) (e : BlockError) : (raiseError op e s).erracc = erraccSet s.erracc e := rfl
@[simp] theorem raiseError_crc (op : Byte) (e : BlockError) : (raiseError op e s).crc = s.crc := rfl
@[simp] theorem raiseError_din (op : Byte) (e : BlockError) : (raiseError op e s).din = s.din := rfl
@[simp] theorem raiseError_frmCmd (op : Byte) (e : BlockError) : (raiseError op e s).frmCmd = s.frmCmd := rfl
@[simp] theorem raiseError_frmRegid (op : Byte) (e : BlockError) : (raiseError op e s).frmRegid = s.frmRegid := rfl
@[simp] theorem raiseError_txlen (op : Byte) (e : BlockError) : (raiseError op e s).txlen = s.txlen := rfl
@[simp] theorem raiseError_txbuf (op : Byte) (e : BlockError) : (raiseError op e s).txbuf = s.txbuf := rfl
@[simp] theorem raiseError_rxlen (op : Byte) (e : BlockError) : (raiseError op e s).rxlen = s.rxlen := rfl
@[simp] theorem raiseError_rxbuf (op : Byte) (e : BlockError) : (raiseError op e s).rxbuf = s.rxbuf := rfl
@[simp] theorem raiseError_payloadLen (op : Byte) (e : BlockError) : (raiseError op e s).payloadLen = s.payloadLen := rfl
@[simp] theorem raiseError_raw (op : Byte) (e : BlockError) : (raiseError op e s).raw = s.raw := rfl
@[simp] theorem raiseError_rxCrc (op : Byte) (e : BlockError) : (raiseError op e s).rxCrc = s.rxCrc := rfl
@[simp] theorem raiseError_fltSb (op : Byte) (e : BlockError) : (raiseError op e s).fltSb = s.fltSb := rfl
@[simp] theorem raiseError_fltEb (op : Byte) (e : BlockError) : (raiseError op e s).fltEb = s.fltEb := rfl
@[simp] theorem raiseError_fltMb (op : Byte) (e : BlockError) : (raiseError op e s).fltMb = s.fltMb := rfl
@[simp] theorem raiseError_fltIn (op : Byte) (e : BlockError) : (raiseError op e s).fltIn = s.fltIn := rfl
@[simp] theorem raiseError_fltClass (op : Byte) (e : BlockError) : (raiseError op e s).fltClass = s.fltClass := rfl
@[simp] theorem raiseError_fltSign (op : Byte) (e : BlockError) : (raiseError op e s).fltSign = s.fltSign := rfl
@[simp] theorem raiseError_fltSig (op : Byte) (e : BlockError) : (raiseError op e s).fltSig = s.fltSig := rfl
@[simp] theorem raiseError_fltExp (op : Byte) (e : BlockError) : (raiseError op e s).fltExp = s.fltExp := rfl
@[simp] theorem raiseError_fltF64 (op : Byte) (e : BlockError) : (raiseError op e s).fltF64 = s.fltF64 := rfl
@[simp] theorem raiseError_draws (op : Byte) (e : BlockError) : (raiseError op e s).draws = s.draws := rfl
@[simp] theorem raiseError_pending (op : Byte) (e : BlockError) : (raiseError op e s).pending = s.pending := rfl
@[simp] theorem raiseError_returned (op : Byte) (e : BlockError) : (raiseError op e s).returned = s.returned := rfl

@[simp] theorem setCrc_params (v : Half) : (setCrc v s).params = s.params := rfl
@[simp] theorem setCrc_statusErr (v : Half) : (setCrc v s).statusErr = s.statusErr := rfl
@[simp] theorem setCrc_statusLastop (v : Half) : (setCrc v s).statusLastop = s.statusLastop := rfl
@[simp] theorem setCrc_erracc (v : Half) : (setCrc v s).erracc = s.erracc := rfl
@[simp] theorem setCrc_crc (v : Half) : (setCrc v s).crc = v := rfl
@[simp] theorem setCrc_din (v : Half) : (setCrc v s).din = s.din := rfl
@[simp] theorem setCrc_frmCmd (v : Half) : (setCrc v s).frmCmd = s.frmCmd := rfl
@[simp] theorem setCrc_frmRegid (v : Half) : (setCrc v s).frmRegid = s.frmRegid := rfl
@[simp] theorem setCrc_txlen (v : Half) : (setCrc v s).txlen = s.txlen := rfl
@[simp] theorem setCrc_txbuf (v : Half) : (setCrc v s).txbuf = s.txbuf := rfl
@[simp] theorem setCrc_rxlen (v : Half) : (setCrc v s).rxlen = s.rxlen := rfl
@[simp] theorem setCrc_rxbuf (v : Half) : (setCrc v s).rxbuf = s.rxbuf := rfl
@[simp] theorem setCrc_payloadLen (v : Half) : (setCrc v s).payloadLen = s.payloadLen := rfl
@[simp] theorem setCrc_raw (v : Half) : (setCrc v s).raw = s.raw := rfl
@[simp] theorem setCrc_rxCrc (v : Half) : (setCrc v s).rxCrc = s.rxCrc := rfl
@[simp] theorem setCrc_fltSb (v : Half) : (setCrc v s).fltSb = s.fltSb := rfl
@[simp] theorem setCrc_fltEb (v : Half) : (setCrc v s).fltEb = s.fltEb := rfl
@[simp] theorem setCrc_fltMb (v : Half) : (setCrc v s).fltMb = s.fltMb := rfl
@[simp] theorem setCrc_fltIn (v : Half) : (setCrc v s).fltIn = s.fltIn := rfl
@[simp] theorem setCrc_fltClass (v : Half) : (setCrc v s).fltClass = s.fltClass := rfl
@[simp] theorem setCrc_fltSign (v : Half) : (setCrc v s).fltSign = s.fltSign := rfl
@[simp] theorem setCrc_fltSig (v : Half) : (setCrc v s).fltSig = s.fltSig := rfl
@[simp] theorem setCrc_fltExp (v : Half) : (setCrc v s).fltExp = s.fltExp := rfl
@[simp] theorem setCrc_fltF64 (v : Half) : (setCrc v s).fltF64 = s.fltF64 := rfl
@[simp] theorem setCrc_draws (v : Half) : (setCrc v s).draws = s.draws := rfl
@[simp] theorem setCrc_pending (v : Half) : (setCrc v s).pending = s.pending := rfl
@[simp] theorem setCrc_returned (v : Half) : (setCrc v s).returned = s.returned := rfl

@[simp] theorem setRxCrc_params (v : Half) : (setRxCrc v s).params = s.params := rfl
@[simp] theorem setRxCrc_statusErr (v : Half) : (setRxCrc v s).statusErr = s.statusErr := rfl
@[simp] theorem setRxCrc_statusLastop (v : Half) : (setRxCrc v s).statusLastop = s.statusLastop := rfl
@[simp] theorem setRxCrc_erracc (v : Half) : (setRxCrc v s).erracc = s.erracc := rfl
@[simp] theorem setRxCrc_crc (v : Half) : (setRxCrc v s).crc = s.crc := rfl
@[simp] theorem setRxCrc_din (v : Half) : (setRxCrc v s).din = s.din := rfl
@[simp] theorem setRxCrc_frmCmd (v : Half) : (setRxCrc v s).frmCmd = s.frmCmd := rfl
@[simp] theorem setRxCrc_frmRegid (v : Half) : (setRxCrc v s).frmRegid = s.frmRegid := rfl
@[simp] theorem setRxCrc_txlen (v : Half) : (setRxCrc v s).txlen = s.txlen := rfl
@[simp] theorem setRxCrc_txbuf (v : Half) : (setRxCrc v s).txbuf = s.txbuf := rfl
@[simp] theorem setRxCrc_rxlen (v : Half) : (setRxCrc v s).rxlen = s.rxlen := rfl
@[simp] theorem setRxCrc_rxbuf (v : Half) : (setRxCrc v s).rxbuf = s.rxbuf := rfl
@[simp] theorem setRxCrc_payloadLen (v : Half) : (setRxCrc v s).payloadLen = s.payloadLen := rfl
@[simp] theorem setRxCrc_raw (v : Half) : (setRxCrc v s).raw = s.raw := rfl
@[simp] theorem setRxCrc_rxCrc (v : Half) : (setRxCrc v s).rxCrc = v := rfl
@[simp] theorem setRxCrc_fltSb (v : Half) : (setRxCrc v s).fltSb = s.fltSb := rfl
@[simp] theorem setRxCrc_fltEb (v : Half) : (setRxCrc v s).fltEb = s.fltEb := rfl
@[simp] theorem setRxCrc_fltMb (v : Half) : (setRxCrc v s).fltMb = s.fltMb := rfl
@[simp] theorem setRxCrc_fltIn (v : Half) : (setRxCrc v s).fltIn = s.fltIn := rfl
@[simp] theorem setRxCrc_fltClass (v : Half) : (setRxCrc v s).fltClass = s.fltClass := rfl
@[simp] theorem setRxCrc_fltSign (v : Half) : (setRxCrc v s).fltSign = s.fltSign := rfl
@[simp] theorem setRxCrc_fltSig (v : Half) : (setRxCrc v s).fltSig = s.fltSig := rfl
@[simp] theorem setRxCrc_fltExp (v : Half) : (setRxCrc v s).fltExp = s.fltExp := rfl
@[simp] theorem setRxCrc_fltF64 (v : Half) : (setRxCrc v s).fltF64 = s.fltF64 := rfl
@[simp] theorem setRxCrc_draws (v : Half) : (setRxCrc v s).draws = s.draws := rfl
@[simp] theorem setRxCrc_pending (v : Half) : (setRxCrc v s).pending = s.pending := rfl
@[simp] theorem setRxCrc_returned (v : Half) : (setRxCrc v s).returned = s.returned := rfl

@[simp] theorem setFrame_params (f : Vector Byte 9) : (setFrame f s).params = s.params := rfl
@[simp] theorem setFrame_statusErr (f : Vector Byte 9) : (setFrame f s).statusErr = s.statusErr := rfl
@[simp] theorem setFrame_statusLastop (f : Vector Byte 9) : (setFrame f s).statusLastop = s.statusLastop := rfl
@[simp] theorem setFrame_erracc (f : Vector Byte 9) : (setFrame f s).erracc = s.erracc := rfl
@[simp] theorem setFrame_crc (f : Vector Byte 9) : (setFrame f s).crc = s.crc := rfl
@[simp] theorem setFrame_din (f : Vector Byte 9) : (setFrame f s).din = s.din := rfl
@[simp] theorem setFrame_frmCmd (f : Vector Byte 9) : (setFrame f s).frmCmd = s.frmCmd := rfl
@[simp] theorem setFrame_frmRegid (f : Vector Byte 9) : (setFrame f s).frmRegid = s.frmRegid := rfl
@[simp] theorem setFrame_txlen (f : Vector Byte 9) : (setFrame f s).txlen = 9 := rfl
@[simp] theorem setFrame_txbuf (f : Vector Byte 9) : (setFrame f s).txbuf = f := rfl
@[simp] theorem setFrame_rxlen (f : Vector Byte 9) : (setFrame f s).rxlen = s.rxlen := rfl
@[simp] theorem setFrame_rxbuf (f : Vector Byte 9) : (setFrame f s).rxbuf = s.rxbuf := rfl
@[simp] theorem setFrame_payloadLen (f : Vector Byte 9) : (setFrame f s).payloadLen = s.payloadLen := rfl
@[simp] theorem setFrame_raw (f : Vector Byte 9) : (setFrame f s).raw = s.raw := rfl
@[simp] theorem setFrame_rxCrc (f : Vector Byte 9) : (setFrame f s).rxCrc = s.rxCrc := rfl
@[simp] theorem setFrame_fltSb (f : Vector Byte 9) : (setFrame f s).fltSb = s.fltSb := rfl
@[simp] theorem setFrame_fltEb (f : Vector Byte 9) : (setFrame f s).fltEb = s.fltEb := rfl
@[simp] theorem setFrame_fltMb (f : Vector Byte 9) : (setFrame f s).fltMb = s.fltMb := rfl
@[simp] theorem setFrame_fltIn (f : Vector Byte 9) : (setFrame f s).fltIn = s.fltIn := rfl
@[simp] theorem setFrame_fltClass (f : Vector Byte 9) : (setFrame f s).fltClass = s.fltClass := rfl
@[simp] theorem setFrame_fltSign (f : Vector Byte 9) : (setFrame f s).fltSign = s.fltSign := rfl
@[simp] theorem setFrame_fltSig (f : Vector Byte 9) : (setFrame f s).fltSig = s.fltSig := rfl
@[simp] theorem setFrame_fltExp (f : Vector Byte 9) : (setFrame f s).fltExp = s.fltExp := rfl
@[simp] theorem setFrame_fltF64 (f : Vector Byte 9) : (setFrame f s).fltF64 = s.fltF64 := rfl
@[simp] theorem setFrame_draws (f : Vector Byte 9) : (setFrame f s).draws = s.draws := rfl
@[simp] theorem setFrame_pending (f : Vector Byte 9) : (setFrame f s).pending = s.pending := rfl
@[simp] theorem setFrame_returned (f : Vector Byte 9) : (setFrame f s).returned = s.returned := rfl

@[simp] theorem setPayload_params (n : Half) (v : DWord) : (setPayload n v s).params = s.params := rfl
@[simp] theorem setPayload_statusErr (n : Half) (v : DWord) : (setPayload n v s).statusErr = s.statusErr := rfl
@[simp] theorem setPayload_statusLastop (n : Half) (v : DWord) : (setPayload n v s).statusLastop = s.statusLastop := rfl
@[simp] theorem setPayload_erracc (n : Half) (v : DWord) : (setPayload n v s).erracc = s.erracc := rfl
@[simp] theorem setPayload_crc (n : Half) (v : DWord) : (setPayload n v s).crc = s.crc := rfl
@[simp] theorem setPayload_din (n : Half) (v : DWord) : (setPayload n v s).din = s.din := rfl
@[simp] theorem setPayload_frmCmd (n : Half) (v : DWord) : (setPayload n v s).frmCmd = s.frmCmd := rfl
@[simp] theorem setPayload_frmRegid (n : Half) (v : DWord) : (setPayload n v s).frmRegid = s.frmRegid := rfl
@[simp] theorem setPayload_txlen (n : Half) (v : DWord) : (setPayload n v s).txlen = s.txlen := rfl
@[simp] theorem setPayload_txbuf (n : Half) (v : DWord) : (setPayload n v s).txbuf = s.txbuf := rfl
@[simp] theorem setPayload_rxlen (n : Half) (v : DWord) : (setPayload n v s).rxlen = s.rxlen := rfl
@[simp] theorem setPayload_rxbuf (n : Half) (v : DWord) : (setPayload n v s).rxbuf = s.rxbuf := rfl
@[simp] theorem setPayload_payloadLen (n : Half) (v : DWord) : (setPayload n v s).payloadLen = n := rfl
@[simp] theorem setPayload_raw (n : Half) (v : DWord) : (setPayload n v s).raw = v := rfl
@[simp] theorem setPayload_rxCrc (n : Half) (v : DWord) : (setPayload n v s).rxCrc = s.rxCrc := rfl
@[simp] theorem setPayload_fltSb (n : Half) (v : DWord) : (setPayload n v s).fltSb = s.fltSb := rfl
@[simp] theorem setPayload_fltEb (n : Half) (v : DWord) : (setPayload n v s).fltEb = s.fltEb := rfl
@[simp] theorem setPayload_fltMb (n : Half) (v : DWord) : (setPayload n v s).fltMb = s.fltMb := rfl
@[simp] theorem setPayload_fltIn (n : Half) (v : DWord) : (setPayload n v s).fltIn = s.fltIn := rfl
@[simp] theorem setPayload_fltClass (n : Half) (v : DWord) : (setPayload n v s).fltClass = s.fltClass := rfl
@[simp] theorem setPayload_fltSign (n : Half) (v : DWord) : (setPayload n v s).fltSign = s.fltSign := rfl
@[simp] theorem setPayload_fltSig (n : Half) (v : DWord) : (setPayload n v s).fltSig = s.fltSig := rfl
@[simp] theorem setPayload_fltExp (n : Half) (v : DWord) : (setPayload n v s).fltExp = s.fltExp := rfl
@[simp] theorem setPayload_fltF64 (n : Half) (v : DWord) : (setPayload n v s).fltF64 = s.fltF64 := rfl
@[simp] theorem setPayload_draws (n : Half) (v : DWord) : (setPayload n v s).draws = s.draws := rfl
@[simp] theorem setPayload_pending (n : Half) (v : DWord) : (setPayload n v s).pending = s.pending := rfl
@[simp] theorem setPayload_returned (n : Half) (v : DWord) : (setPayload n v s).returned = s.returned := rfl

@[simp] theorem setFloat_params (c : FltClass) (g : Bool) (m x d : DWord) : (setFloat c g m x d s).params = s.params := rfl
@[simp] theorem setFloat_statusErr (c : FltClass) (g : Bool) (m x d : DWord) : (setFloat c g m x d s).statusErr = s.statusErr := rfl
@[simp] theorem setFloat_statusLastop (c : FltClass) (g : Bool) (m x d : DWord) : (setFloat c g m x d s).statusLastop = s.statusLastop := rfl
@[simp] theorem setFloat_erracc (c : FltClass) (g : Bool) (m x d : DWord) : (setFloat c g m x d s).erracc = s.erracc := rfl
@[simp] theorem setFloat_crc (c : FltClass) (g : Bool) (m x d : DWord) : (setFloat c g m x d s).crc = s.crc := rfl
@[simp] theorem setFloat_din (c : FltClass) (g : Bool) (m x d : DWord) : (setFloat c g m x d s).din = s.din := rfl
@[simp] theorem setFloat_frmCmd (c : FltClass) (g : Bool) (m x d : DWord) : (setFloat c g m x d s).frmCmd = s.frmCmd := rfl
@[simp] theorem setFloat_frmRegid (c : FltClass) (g : Bool) (m x d : DWord) : (setFloat c g m x d s).frmRegid = s.frmRegid := rfl
@[simp] theorem setFloat_txlen (c : FltClass) (g : Bool) (m x d : DWord) : (setFloat c g m x d s).txlen = s.txlen := rfl
@[simp] theorem setFloat_txbuf (c : FltClass) (g : Bool) (m x d : DWord) : (setFloat c g m x d s).txbuf = s.txbuf := rfl
@[simp] theorem setFloat_rxlen (c : FltClass) (g : Bool) (m x d : DWord) : (setFloat c g m x d s).rxlen = s.rxlen := rfl
@[simp] theorem setFloat_rxbuf (c : FltClass) (g : Bool) (m x d : DWord) : (setFloat c g m x d s).rxbuf = s.rxbuf := rfl
@[simp] theorem setFloat_payloadLen (c : FltClass) (g : Bool) (m x d : DWord) : (setFloat c g m x d s).payloadLen = s.payloadLen := rfl
@[simp] theorem setFloat_raw (c : FltClass) (g : Bool) (m x d : DWord) : (setFloat c g m x d s).raw = s.raw := rfl
@[simp] theorem setFloat_rxCrc (c : FltClass) (g : Bool) (m x d : DWord) : (setFloat c g m x d s).rxCrc = s.rxCrc := rfl
@[simp] theorem setFloat_fltSb (c : FltClass) (g : Bool) (m x d : DWord) : (setFloat c g m x d s).fltSb = s.fltSb := rfl
@[simp] theorem setFloat_fltEb (c : FltClass) (g : Bool) (m x d : DWord) : (setFloat c g m x d s).fltEb = s.fltEb := rfl
@[simp] theorem setFloat_fltMb (c : FltClass) (g : Bool) (m x d : DWord) : (setFloat c g m x d s).fltMb = s.fltMb := rfl
@[simp] theorem setFloat_fltIn (c : FltClass) (g : Bool) (m x d : DWord) : (setFloat c g m x d s).fltIn = s.fltIn := rfl
@[simp] theorem setFloat_fltClass (c : FltClass) (g : Bool) (m x d : DWord) : (setFloat c g m x d s).fltClass = c := rfl
@[simp] theorem setFloat_fltSign (c : FltClass) (g : Bool) (m x d : DWord) : (setFloat c g m x d s).fltSign = g := rfl
@[simp] theorem setFloat_fltSig (c : FltClass) (g : Bool) (m x d : DWord) : (setFloat c g m x d s).fltSig = m := rfl
@[simp] theorem setFloat_fltExp (c : FltClass) (g : Bool) (m x d : DWord) : (setFloat c g m x d s).fltExp = x := rfl
@[simp] theorem setFloat_fltF64 (c : FltClass) (g : Bool) (m x d : DWord) : (setFloat c g m x d s).fltF64 = d := rfl
@[simp] theorem setFloat_draws (c : FltClass) (g : Bool) (m x d : DWord) : (setFloat c g m x d s).draws = s.draws := rfl
@[simp] theorem setFloat_pending (c : FltClass) (g : Bool) (m x d : DWord) : (setFloat c g m x d s).pending = s.pending := rfl
@[simp] theorem setFloat_returned (c : FltClass) (g : Bool) (m x d : DWord) : (setFloat c g m x d s).returned = s.returned := rfl

@[simp] theorem setRxByte_params (i : Nat) (b : Byte) : (setRxByte i b s).params = s.params := rfl
@[simp] theorem setRxByte_statusErr (i : Nat) (b : Byte) : (setRxByte i b s).statusErr = s.statusErr := rfl
@[simp] theorem setRxByte_statusLastop (i : Nat) (b : Byte) : (setRxByte i b s).statusLastop = s.statusLastop := rfl
@[simp] theorem setRxByte_erracc (i : Nat) (b : Byte) : (setRxByte i b s).erracc = s.erracc := rfl
@[simp] theorem setRxByte_crc (i : Nat) (b : Byte) : (setRxByte i b s).crc = s.crc := rfl
@[simp] theorem setRxByte_din (i : Nat) (b : Byte) : (setRxByte i b s).din = s.din := rfl
@[simp] theorem setRxByte_frmCmd (i : Nat) (b : Byte) : (setRxByte i b s).frmCmd = s.frmCmd := rfl
@[simp] theorem setRxByte_frmRegid (i : Nat) (b : Byte) : (setRxByte i b s).frmRegid = s.frmRegid := rfl
@[simp] theorem setRxByte_txlen (i : Nat) (b : Byte) : (setRxByte i b s).txlen = s.txlen := rfl
@[simp] theorem setRxByte_txbuf (i : Nat) (b : Byte) : (setRxByte i b s).txbuf = s.txbuf := rfl
@[simp] theorem setRxByte_rxlen (i : Nat) (b : Byte) : (setRxByte i b s).rxlen = s.rxlen := rfl
@[simp] theorem setRxByte_rxbuf (i : Nat) (b : Byte) : (setRxByte i b s).rxbuf = Memory.put s.rxbuf i b := rfl
@[simp] theorem setRxByte_payloadLen (i : Nat) (b : Byte) : (setRxByte i b s).payloadLen = s.payloadLen := rfl
@[simp] theorem setRxByte_raw (i : Nat) (b : Byte) : (setRxByte i b s).raw = s.raw := rfl
@[simp] theorem setRxByte_rxCrc (i : Nat) (b : Byte) : (setRxByte i b s).rxCrc = s.rxCrc := rfl
@[simp] theorem setRxByte_fltSb (i : Nat) (b : Byte) : (setRxByte i b s).fltSb = s.fltSb := rfl
@[simp] theorem setRxByte_fltEb (i : Nat) (b : Byte) : (setRxByte i b s).fltEb = s.fltEb := rfl
@[simp] theorem setRxByte_fltMb (i : Nat) (b : Byte) : (setRxByte i b s).fltMb = s.fltMb := rfl
@[simp] theorem setRxByte_fltIn (i : Nat) (b : Byte) : (setRxByte i b s).fltIn = s.fltIn := rfl
@[simp] theorem setRxByte_fltClass (i : Nat) (b : Byte) : (setRxByte i b s).fltClass = s.fltClass := rfl
@[simp] theorem setRxByte_fltSign (i : Nat) (b : Byte) : (setRxByte i b s).fltSign = s.fltSign := rfl
@[simp] theorem setRxByte_fltSig (i : Nat) (b : Byte) : (setRxByte i b s).fltSig = s.fltSig := rfl
@[simp] theorem setRxByte_fltExp (i : Nat) (b : Byte) : (setRxByte i b s).fltExp = s.fltExp := rfl
@[simp] theorem setRxByte_fltF64 (i : Nat) (b : Byte) : (setRxByte i b s).fltF64 = s.fltF64 := rfl
@[simp] theorem setRxByte_draws (i : Nat) (b : Byte) : (setRxByte i b s).draws = s.draws := rfl
@[simp] theorem setRxByte_pending (i : Nat) (b : Byte) : (setRxByte i b s).pending = s.pending := rfl
@[simp] theorem setRxByte_returned (i : Nat) (b : Byte) : (setRxByte i b s).returned = s.returned := rfl

@[simp] theorem setPending_params (es : List Event) : (setPending es s).params = s.params := rfl
@[simp] theorem setPending_statusErr (es : List Event) : (setPending es s).statusErr = s.statusErr := rfl
@[simp] theorem setPending_statusLastop (es : List Event) : (setPending es s).statusLastop = s.statusLastop := rfl
@[simp] theorem setPending_erracc (es : List Event) : (setPending es s).erracc = s.erracc := rfl
@[simp] theorem setPending_crc (es : List Event) : (setPending es s).crc = s.crc := rfl
@[simp] theorem setPending_din (es : List Event) : (setPending es s).din = s.din := rfl
@[simp] theorem setPending_frmCmd (es : List Event) : (setPending es s).frmCmd = s.frmCmd := rfl
@[simp] theorem setPending_frmRegid (es : List Event) : (setPending es s).frmRegid = s.frmRegid := rfl
@[simp] theorem setPending_txlen (es : List Event) : (setPending es s).txlen = s.txlen := rfl
@[simp] theorem setPending_txbuf (es : List Event) : (setPending es s).txbuf = s.txbuf := rfl
@[simp] theorem setPending_rxlen (es : List Event) : (setPending es s).rxlen = s.rxlen := rfl
@[simp] theorem setPending_rxbuf (es : List Event) : (setPending es s).rxbuf = s.rxbuf := rfl
@[simp] theorem setPending_payloadLen (es : List Event) : (setPending es s).payloadLen = s.payloadLen := rfl
@[simp] theorem setPending_raw (es : List Event) : (setPending es s).raw = s.raw := rfl
@[simp] theorem setPending_rxCrc (es : List Event) : (setPending es s).rxCrc = s.rxCrc := rfl
@[simp] theorem setPending_fltSb (es : List Event) : (setPending es s).fltSb = s.fltSb := rfl
@[simp] theorem setPending_fltEb (es : List Event) : (setPending es s).fltEb = s.fltEb := rfl
@[simp] theorem setPending_fltMb (es : List Event) : (setPending es s).fltMb = s.fltMb := rfl
@[simp] theorem setPending_fltIn (es : List Event) : (setPending es s).fltIn = s.fltIn := rfl
@[simp] theorem setPending_fltClass (es : List Event) : (setPending es s).fltClass = s.fltClass := rfl
@[simp] theorem setPending_fltSign (es : List Event) : (setPending es s).fltSign = s.fltSign := rfl
@[simp] theorem setPending_fltSig (es : List Event) : (setPending es s).fltSig = s.fltSig := rfl
@[simp] theorem setPending_fltExp (es : List Event) : (setPending es s).fltExp = s.fltExp := rfl
@[simp] theorem setPending_fltF64 (es : List Event) : (setPending es s).fltF64 = s.fltF64 := rfl
@[simp] theorem setPending_draws (es : List Event) : (setPending es s).draws = s.draws := rfl
@[simp] theorem setPending_pending (es : List Event) : (setPending es s).pending = es := rfl
@[simp] theorem setPending_returned (es : List Event) : (setPending es s).returned = s.returned := rfl

@[simp] theorem pushReturned_params (w : Word) : (pushReturned w s).params = s.params := rfl
@[simp] theorem pushReturned_statusErr (w : Word) : (pushReturned w s).statusErr = s.statusErr := rfl
@[simp] theorem pushReturned_statusLastop (w : Word) : (pushReturned w s).statusLastop = s.statusLastop := rfl
@[simp] theorem pushReturned_erracc (w : Word) : (pushReturned w s).erracc = s.erracc := rfl
@[simp] theorem pushReturned_crc (w : Word) : (pushReturned w s).crc = s.crc := rfl
@[simp] theorem pushReturned_din (w : Word) : (pushReturned w s).din = s.din := rfl
@[simp] theorem pushReturned_frmCmd (w : Word) : (pushReturned w s).frmCmd = s.frmCmd := rfl
@[simp] theorem pushReturned_frmRegid (w : Word) : (pushReturned w s).frmRegid = s.frmRegid := rfl
@[simp] theorem pushReturned_txlen (w : Word) : (pushReturned w s).txlen = s.txlen := rfl
@[simp] theorem pushReturned_txbuf (w : Word) : (pushReturned w s).txbuf = s.txbuf := rfl
@[simp] theorem pushReturned_rxlen (w : Word) : (pushReturned w s).rxlen = s.rxlen := rfl
@[simp] theorem pushReturned_rxbuf (w : Word) : (pushReturned w s).rxbuf = s.rxbuf := rfl
@[simp] theorem pushReturned_payloadLen (w : Word) : (pushReturned w s).payloadLen = s.payloadLen := rfl
@[simp] theorem pushReturned_raw (w : Word) : (pushReturned w s).raw = s.raw := rfl
@[simp] theorem pushReturned_rxCrc (w : Word) : (pushReturned w s).rxCrc = s.rxCrc := rfl
@[simp] theorem pushReturned_fltSb (w : Word) : (pushReturned w s).fltSb = s.fltSb := rfl
@[simp] theorem pushReturned_fltEb (w : Word) : (pushReturned w s).fltEb = s.fltEb := rfl
@[simp] theorem pushReturned_fltMb (w : Word) : (pushReturned w s).fltMb = s.fltMb := rfl
@[simp] theorem pushReturned_fltIn (w : Word) : (pushReturned w s).fltIn = s.fltIn := rfl
@[simp] theorem pushReturned_fltClass (w : Word) : (pushReturned w s).fltClass = s.fltClass := rfl
@[simp] theorem pushReturned_fltSign (w : Word) : (pushReturned w s).fltSign = s.fltSign := rfl
@[simp] theorem pushReturned_fltSig (w : Word) : (pushReturned w s).fltSig = s.fltSig := rfl
@[simp] theorem pushReturned_fltExp (w : Word) : (pushReturned w s).fltExp = s.fltExp := rfl
@[simp] theorem pushReturned_fltF64 (w : Word) : (pushReturned w s).fltF64 = s.fltF64 := rfl
@[simp] theorem pushReturned_draws (w : Word) : (pushReturned w s).draws = s.draws := rfl
@[simp] theorem pushReturned_pending (w : Word) : (pushReturned w s).pending = s.pending := rfl
@[simp] theorem pushReturned_returned (w : Word) : (pushReturned w s).returned = s.returned ++ [w] := rfl

@[simp] theorem assertReset_params : (assertReset s).params = s.params := rfl
@[simp] theorem assertReset_statusErr : (assertReset s).statusErr = State.reset.statusErr := rfl
@[simp] theorem assertReset_statusLastop : (assertReset s).statusLastop = State.reset.statusLastop := rfl
@[simp] theorem assertReset_erracc : (assertReset s).erracc = State.reset.erracc := rfl
@[simp] theorem assertReset_crc : (assertReset s).crc = State.reset.crc := rfl
@[simp] theorem assertReset_din : (assertReset s).din = State.reset.din := rfl
@[simp] theorem assertReset_frmCmd : (assertReset s).frmCmd = State.reset.frmCmd := rfl
@[simp] theorem assertReset_frmRegid : (assertReset s).frmRegid = State.reset.frmRegid := rfl
@[simp] theorem assertReset_txlen : (assertReset s).txlen = State.reset.txlen := rfl
@[simp] theorem assertReset_txbuf : (assertReset s).txbuf = State.reset.txbuf := rfl
@[simp] theorem assertReset_rxlen : (assertReset s).rxlen = State.reset.rxlen := rfl
@[simp] theorem assertReset_rxbuf : (assertReset s).rxbuf = State.reset.rxbuf := rfl
@[simp] theorem assertReset_payloadLen : (assertReset s).payloadLen = State.reset.payloadLen := rfl
@[simp] theorem assertReset_raw : (assertReset s).raw = State.reset.raw := rfl
@[simp] theorem assertReset_rxCrc : (assertReset s).rxCrc = State.reset.rxCrc := rfl
@[simp] theorem assertReset_fltSb : (assertReset s).fltSb = State.reset.fltSb := rfl
@[simp] theorem assertReset_fltEb : (assertReset s).fltEb = State.reset.fltEb := rfl
@[simp] theorem assertReset_fltMb : (assertReset s).fltMb = State.reset.fltMb := rfl
@[simp] theorem assertReset_fltIn : (assertReset s).fltIn = State.reset.fltIn := rfl
@[simp] theorem assertReset_fltClass : (assertReset s).fltClass = State.reset.fltClass := rfl
@[simp] theorem assertReset_fltSign : (assertReset s).fltSign = State.reset.fltSign := rfl
@[simp] theorem assertReset_fltSig : (assertReset s).fltSig = State.reset.fltSig := rfl
@[simp] theorem assertReset_fltExp : (assertReset s).fltExp = State.reset.fltExp := rfl
@[simp] theorem assertReset_fltF64 : (assertReset s).fltF64 = State.reset.fltF64 := rfl
@[simp] theorem assertReset_draws : (assertReset s).draws = s.draws + 1 := rfl
@[simp] theorem assertReset_pending : (assertReset s).pending = s.pending := rfl
@[simp] theorem assertReset_returned : (assertReset s).returned = s.returned := rfl

end Sys2Proof.Machine
end

