-- ==== Sys2Proof/Laws/Memory.lean ====
section
/-! SUPPORT. Laws of RXBUF: reading after writing, the canonical form, and the operations that leave every byte as it reads
(spec/10_state.md R123, spec/70_reset_and_hazards.md R702). -/

namespace Sys2Proof.Machine

/-- Reading an index after a write: the byte written there, else what was there. -/
theorem get?_put (m : Memory) (i j : Nat) (b : Byte) :
    Memory.get? (Memory.put m i b) j = if j = i then some b else Memory.get? m j := by
  induction m with
  | nil => simp only [Memory.put, Memory.get?, eq_comm (a := i)]
  | cons c m ih =>
    obtain ⟨a, v⟩ := c
    simp only [Memory.put]
    split_ifs with h1 h2 h3 h4 <;> simp only [Memory.get?] <;> (try rw [ih]) <;> split_ifs <;> first | rfl | omega

/-- The indexes a write lists are the old ones and the written one. -/
theorem mem_put {m : Memory} {i : Nat} {b : Byte} {c : Host.Cell} (h : c ∈ Memory.put m i b) : c = (i, b) ∨ c ∈ m := by
  induction m with
  | nil => simpa [Memory.put] using h
  | cons d m ih =>
    obtain ⟨a, v⟩ := d
    simp only [Memory.put] at h
    split_ifs at h <;> simp only [List.mem_cons] at h ⊢ <;> tauto

/-- A write inside the buffer keeps the canonical form. -/
theorem wf_put {n i : Nat} {m : Memory} (b : Byte) (hm : Memory.wf n m) (hi : i < n) : Memory.wf n (Memory.put m i b) := by
  refine ⟨?_, fun c hc => ?_⟩
  · have hs := hm.1
    clear hm
    induction m with
    | nil => simp [Memory.put]
    | cons d m ih =>
      obtain ⟨a, v⟩ := d
      simp only [List.map_cons, List.pairwise_cons] at hs
      simp only [Memory.put]
      split_ifs with h1 h2
      · simp only [List.map_cons, List.pairwise_cons, List.mem_cons]
        refine ⟨?_, hs⟩
        rintro x (rfl | hx)
        · exact h1
        · exact lt_trans h1 (hs.1 x hx)
      · subst h2
        simpa using hs
      · simp only [List.map_cons, List.pairwise_cons]
        refine ⟨fun x hx => ?_, ih hs.2⟩
        obtain ⟨c, hc, rfl⟩ := List.mem_map.1 hx
        rcases mem_put hc with rfl | hc
        · simp; omega
        · exact hs.1 _ (List.mem_map.2 ⟨c, hc, rfl⟩)
  · rcases mem_put hc with rfl | hc
    · exact hi
    · exact hm.2 c hc

/-- The empty buffer is in canonical form. -/
theorem wf_nil (n : Nat) : Memory.wf n [] := ⟨List.Pairwise.nil, nofun⟩

/-- The buffer of the reset state is in canonical form, with nothing listed. -/
theorem reset_rxbuf_wf (n : Nat) : Memory.wf n State.reset.rxbuf := wf_nil n

/-- A write of the same byte again changes nothing. -/
theorem put_put (m : Memory) (i : Nat) (b : Byte) : Memory.put (Memory.put m i b) i b = Memory.put m i b := by
  induction m with
  | nil => simp [Memory.put]
  | cons c m ih =>
    obtain ⟨a, v⟩ := c
    simp only [Memory.put]
    split_ifs with h1 h2
    · simp [Memory.put]
    · simp [Memory.put]
    · simp [Memory.put, h1, h2, ih]

theorem rxByte_setRxByte (s : State) (i j : Nat) (b : Byte) :
    rxByte (setRxByte i b s) j = if j = i then b else rxByte s j := by
  simp only [rxByte, setRxByte_rxbuf, setRxByte_draws, get?_put]
  split_ifs <;> rfl

/-- What RXBUF reads as depends only on the written bytes and the draws. -/
theorem rxByte_congr {s t : State} (hr : t.rxbuf = s.rxbuf) (hd : t.draws = s.draws) (k : Nat) :
    rxByte t k = rxByte s k := by
  rw [rxByte, rxByte, hr, hd]

@[simp] theorem rxByte_finish (op : Byte) (s : State) (k : Nat) : rxByte (finish op s) k = rxByte s k := rfl
@[simp] theorem rxByte_raiseError (op : Byte) (e : BlockError) (s : State) (k : Nat) :
    rxByte (raiseError op e s) k = rxByte s k := rfl
@[simp] theorem rxByte_setCrc (v : Half) (s : State) (k : Nat) : rxByte (setCrc v s) k = rxByte s k := rfl
@[simp] theorem rxByte_setRxCrc (v : Half) (s : State) (k : Nat) : rxByte (setRxCrc v s) k = rxByte s k := rfl
@[simp] theorem rxByte_setFrame (f : Vector Byte 9) (s : State) (k : Nat) : rxByte (setFrame f s) k = rxByte s k := rfl
@[simp] theorem rxByte_setPayload (n : Half) (v : DWord) (s : State) (k : Nat) :
    rxByte (setPayload n v s) k = rxByte s k := rfl
@[simp] theorem rxByte_setFloat (c : FltClass) (g : Bool) (m x d : DWord) (s : State) (k : Nat) :
    rxByte (setFloat c g m x d s) k = rxByte s k := rfl
@[simp] theorem rxByte_setPending (es : List Event) (s : State) (k : Nat) : rxByte (setPending es s) k = rxByte s k := rfl
@[simp] theorem rxByte_pushReturned (w : Word) (s : State) (k : Nat) : rxByte (pushReturned w s) k = rxByte s k := rfl

@[simp] theorem rxBytes_length (s : State) (n : Nat) : (rxBytes s n).length = n := by simp [rxBytes]

theorem rxBytes_take (s : State) {n k : Nat} (h : k ≤ n) : (rxBytes s n).take k = rxBytes s k := by
  simp [rxBytes, ← List.map_take, List.take_range, h]

theorem rxBytes_drop (s : State) (n k : Nat) :
    (rxBytes s n).drop k = (List.range (n - k)).map fun j => rxByte s (k + j) := by
  apply List.ext_getElem
  · simp
  · intro i h1 h2
    simp [rxBytes]

/-- The bytes of a list that RXBUF holds from index 0 on. -/
theorem rxBytes_eq_of_getD {s : State} {bs : List Byte} (h : ∀ k < bs.length, rxByte s k = bs.getD k 0) :
    rxBytes s bs.length = bs := by
  apply List.ext_getElem
  · simp
  · intro i h1 h2
    simp [rxBytes, h i h2, List.getD_eq_getElem?_getD, List.getElem?_eq_getElem h2]

/-- A byte changed in the buffer is the byte changed in the list. -/
theorem rxBytes_setRxByte (s : State) (n i : Nat) (b : Byte) : rxBytes (setRxByte i b s) n = (rxBytes s n).set i b := by
  apply List.ext_getElem
  · simp
  · intro k h1 h2
    simp only [rxBytes, List.getElem_map, List.getElem_range, rxByte_setRxByte, List.getElem_set]
    split_ifs <;> first | rfl | omega

end Sys2Proof.Machine
end

