-- ==== Sys2Proof/Laws/Frame.lean ====
section
/-! SUPPORT. Laws of the frames (spec/41_frame.md): the bytes of a request, the parts of a response that stands in RXBUF, and
the parts of a response built from header, payload and checksum. -/

namespace Sys2Proof.Machine

/-- The header of a request, byte by byte (R450). -/
theorem requestHeader_bytes (c : Byte) (id : Word) :
    requestHeader c id =
      [c, 0x04, id.extractLsb' 24 8, id.extractLsb' 16 8, id.extractLsb' 8 8, id.extractLsb' 0 8] := by
  simp [requestHeader, beBytes_four, Config.readLen]

@[simp] theorem requestHeader_length (c : Byte) (id : Word) : (requestHeader c id).length = 6 := by
  simp [requestHeader_bytes]

/-- A request frame is the start marker, the header and the checksum's two bytes (R451). -/
theorem encodeFrame_eq (c : Byte) (id : Word) :
    encodeFrame c id = 0x2B :: (requestHeader c id ++ beBytes 2 (checksum (requestHeader c id)).toNat) := rfl

@[simp] theorem encodeFrame_length (c : Byte) (id : Word) : (encodeFrame c id).length = 9 := by
  simp [encodeFrame_eq]

/-- TXBUF holds a nine-byte frame as it is. -/
theorem frameVector_toList {f : List Byte} (h : f.length = 9) : (frameVector f).toList = f := by
  match f, h with
  | [a, b, c, d, e, g, i, j, k], _ => rfl

/-- The last two bytes of a request frame are its header checksum (R454). -/
theorem encodeFrame_trailer (c : Byte) (id : Word) :
    BitVec.ofNat 16 (beValue ((encodeFrame c id).drop 7)) = checksum (requestHeader c id) := by
  have h : (encodeFrame c id).drop 7 = beBytes 2 (checksum (requestHeader c id)).toNat := by
    rw [encodeFrame_eq, List.drop_succ_cons, List.drop_append_of_le_length (by simp),
      List.drop_eq_nil_of_le (by simp), List.nil_append]
  rw [h, beValue_beBytes (checksum (requestHeader c id)).isLt, BitVec.ofNat_toNat, BitVec.setWidth_eq]

theorem responseBody_rxBytes (s : State) (n : Nat) : responseBody (rxBytes s n) = rxBytes s (n - 2) := by
  rw [responseBody, rxBytes_length, rxBytes_take s (Nat.sub_le n 2)]

theorem responseTrailer_rxBytes (s : State) {n : Nat} (h : 2 ≤ n) :
    responseTrailer (rxBytes s n) = (rxByte s (n - 2) ++ rxByte s (n - 1) : Half).toNat := by
  have h1 : n - (n - 2) = 2 := by omega
  have h2 : n - 2 + 1 = n - 1 := by omega
  rw [responseTrailer, rxBytes_length, rxBytes_drop, h1, ← beValue_pair]
  simp [List.range_succ, h2]

theorem responseValue_rxBytes (s : State) (n : Nat) :
    responseValue (rxBytes s n) = beValue ((List.range (n - 8)).map fun k => rxByte s (6 + k)) := by
  have h1 : n - 2 - 6 = n - 8 := by omega
  rw [responseValue, responseBody_rxBytes, rxBytes_drop, Config.hdrBytes, h1]

theorem responseBody_append (u : List Byte) {v : List Byte} (hv : v.length = 2) : responseBody (u ++ v) = u := by
  rw [responseBody, List.length_append, hv, Nat.add_sub_cancel, List.take_left]

theorem responseTrailer_append (u : List Byte) {v : List Byte} (hv : v.length = 2) :
    responseTrailer (u ++ v) = beValue v := by
  rw [responseTrailer, List.length_append, hv, Nat.add_sub_cancel, List.drop_left]

theorem responseValue_append {h : List Byte} (p : List Byte) {v : List Byte} (hh : h.length = 6) (hv : v.length = 2) :
    responseValue (h ++ p ++ v) = beValue p := by
  rw [responseValue, responseBody_append _ hv, Config.hdrBytes, ← hh, List.drop_left]

end Sys2Proof.Machine
end

