-- ==== Sys2Proof/Laws/Exec.lean ====
section
/-! SUPPORT. What each command can do, once: the state a command answers, as named updates of the state it started from.
Proofs about commands cite these and do not unfold the meanings. -/

namespace Sys2Proof.Machine

/-- RXBUF[0..RXLEN), the response or the bytes to sum. -/
abbrev rxAll (s : State) : List Byte := rxBytes s (rxLength s)

/-- FRM_DEC after the length checks: RX_CRC and CRC written (R455). -/
def frmDecChecked (s : State) : State :=
  setCrc (checksum (responseBody (rxAll s))) (setRxCrc (BitVec.ofNat 16 (responseTrailer (rxAll s))) s)

/-- FLT_DEC's result (R510). -/
def fltDecResult (s : State) : FloatResult := floatResult (floatSpec s) (floatInput s)

theorem exec_nop (s : State) : exec .nop s = .next (finish 0x00 s) := rfl

theorem exec_cksInit (s : State) : exec .cksInit s = .next (finish 0x01 (setCrc 0xFFFF s)) := rfl

theorem exec_cksByte (s : State) : exec .cksByte s = .next (finish 0x02 (setCrc (crcStep s.crc s.din) s)) := rfl

theorem exec_frmEnc (s : State) :
    exec .frmEnc s = .next (finish 0x10 (setCrc (checksum (requestHeader s.frmCmd s.frmRegid))
      (setFrame (frameVector (encodeFrame s.frmCmd s.frmRegid)) s))) := by
  simp only [exec, execFrmEnc, encodeFrame_trailer, opcode]

/-- A command that ends in an error does not end OK. -/
theorem raiseError_not_ok {op : Byte} {e : BlockError} {s : State} : (raiseError op e s).statusErr ≠ 0 := errCode_ne_zero e

/-- CKS_BUF: the length error, or the checksum. -/
theorem exec_cksBuf_cases {s t : State} (h : exec .cksBuf s = .next t) :
    (s.params.bufBytes < rxLength s ∧ t = raiseError 0x03 .lengthOutOfRange s) ∨
    (rxLength s ≤ s.params.bufBytes ∧ t = finish 0x03 (setCrc (checksum (rxAll s)) s)) := by
  simp only [exec, execCksBuf] at h
  split at h <;> cases h
  · exact .inl ⟨‹_›, rfl⟩
  · exact .inr ⟨Nat.le_of_not_lt ‹_›, rfl⟩

/-- FRM_DEC: the three errors in their order, or the unpacked response. -/
theorem exec_frmDec_cases {s t : State} (h : exec .frmDec s = .next t) :
    (s.params.bufBytes < rxLength s ∧ t = raiseError 0x11 .lengthOutOfRange s) ∨
    (rxLength s ≤ s.params.bufBytes ∧ rxLength s < 8 ∧ t = raiseError 0x11 .frameTooShort s) ∨
    (rxLength s ≤ s.params.bufBytes ∧ 8 ≤ rxLength s ∧
      (checksum (responseBody (rxAll s))).toNat ≠ responseTrailer (rxAll s) ∧
      t = raiseError 0x11 .checksumMismatch (frmDecChecked s)) ∨
    (rxLength s ≤ s.params.bufBytes ∧ 8 ≤ rxLength s ∧
      (checksum (responseBody (rxAll s))).toNat = responseTrailer (rxAll s) ∧
      t = finish 0x11 (setPayload (BitVec.ofNat 16 (rxLength s - 8)) (BitVec.ofNat 64 (responseValue (rxAll s)))
        (frmDecChecked s))) := by
  simp only [exec, execFrmDec] at h
  split at h
  · cases h; exact .inl ⟨‹_›, rfl⟩
  · rename_i h1
    split at h
    · rename_i h2; cases h; exact .inr (.inl ⟨Nat.le_of_not_lt h1, h2, rfl⟩)
    · rename_i h2
      split at h <;> cases h
      · exact .inr (.inr (.inl ⟨Nat.le_of_not_lt h1, Nat.le_of_not_lt h2, ‹_›, rfl⟩))
      · exact .inr (.inr (.inr ⟨Nat.le_of_not_lt h1, Nat.le_of_not_lt h2, not_not.1 ‹_›, rfl⟩))

/-- FLT_DEC: the two errors in their order, or the decoded result. -/
theorem exec_fltDec_cases {s t : State} (h : exec .fltDec s = .next t) :
    (floatSpecValid (floatSpec s) = false ∧ t = raiseError 0x20 .invalidSpec s) ∨
    (floatSpecValid (floatSpec s) = true ∧ 2 ^ floatWidth (floatSpec s) ≤ floatInput s ∧
      t = raiseError 0x20 .valueOutOfRange s) ∨
    (floatSpecValid (floatSpec s) = true ∧ floatInput s < 2 ^ floatWidth (floatSpec s) ∧
      t = finish 0x20 (setFloat (fltDecResult s).cls (fltDecResult s).sign (BitVec.ofNat 64 (fltDecResult s).sig)
        (BitVec.ofInt 64 (fltDecResult s).q) (f64View (fltDecResult s)) s)) := by
  simp only [exec, execFltDec] at h
  split at h
  · cases h; exact .inl ⟨‹_›, rfl⟩
  · rename_i h1
    have hv := Bool.of_not_eq_false h1
    split at h <;> cases h
    · exact .inr (.inl ⟨hv, ‹_›, rfl⟩)
    · exact .inr (.inr ⟨hv, Nat.lt_of_not_le ‹_›, rfl⟩)

/-- No meaning stops: the outcome of a command is a state (R310). -/
theorem exec_stops_nowhere (i : Instr) (s : State) (r : Refusal) : exec i s ≠ .refused r := by
  cases i <;> simp only [exec, execNop, execCksInit, execCksByte, execCksBuf, execFrmEnc, execFrmDec, execFltDec] <;>
    (repeat' split) <;> exact nofun

/-- No command changes the parameters, an operand register, RXBUF or the host's record (R706). -/
theorem exec_keeps_operands {i : Instr} {s t : State} (h : exec i s = .next t) :
    t.params = s.params ∧ t.din = s.din ∧ t.frmCmd = s.frmCmd ∧ t.frmRegid = s.frmRegid ∧ t.rxlen = s.rxlen ∧
    t.rxbuf = s.rxbuf ∧ t.fltSb = s.fltSb ∧ t.fltEb = s.fltEb ∧ t.fltMb = s.fltMb ∧ t.fltIn = s.fltIn ∧
    t.draws = s.draws ∧ t.pending = s.pending ∧ t.returned = s.returned := by
  cases i
  case nop => cases h; simp
  case cksInit => cases h; simp
  case cksByte => cases h; simp
  case cksBuf => rcases exec_cksBuf_cases h with ⟨-, rfl⟩ | ⟨-, rfl⟩ <;> simp
  case frmEnc => rw [exec_frmEnc] at h; cases h; simp
  case frmDec =>
    rcases exec_frmDec_cases h with ⟨-, rfl⟩ | ⟨-, -, rfl⟩ | ⟨-, -, -, rfl⟩ | ⟨-, -, -, rfl⟩ <;> simp [frmDecChecked]
  case fltDec => rcases exec_fltDec_cases h with ⟨-, rfl⟩ | ⟨-, -, rfl⟩ | ⟨-, -, rfl⟩ <;> simp

end Sys2Proof.Machine
end

