-- ==== Sys2Proof/Laws/Bus.lean ====
section
/-! SUPPORT. Laws of the window and of a step: where each place lies, which accesses are admitted, and once and for all what
a step can do (spec/10_state.md R102, spec/20_memory.md R201 to R205). -/

namespace Sys2Proof.Machine

theorem locate_reg (r : Reg) : locate (regOffset r) = .reg r := by
  cases r <;> rfl

theorem locate_txbuf (i : Fin 9) : locate (0x200 + 4 * i.val) = .txbuf i := by
  revert i; decide

theorem locate_rxbuf (i : Nat) : locate (0x400 + 4 * i) = .rxbuf i := by
  have h1 : ¬ 0x400 + 4 * i < 0x060 := by omega
  have h2 : ¬ 0x400 + 4 * i < 0x200 := by omega
  have h3 : ¬ 0x400 + 4 * i < 0x224 := by omega
  have h4 : ¬ 0x400 + 4 * i < 0x400 := by omega
  have h5 : (0x400 + 4 * i - 0x400) / 4 = i := by omega
  simp only [locate, h1, h2, h3, h4, h5, if_false]

theorem locate_reserved {off : Nat} (h : (0x060 ≤ off ∧ off < 0x200) ∨ (0x224 ≤ off ∧ off < 0x400)) :
    locate off = .reserved off := by
  unfold locate
  have h1 : ¬ off < 0x060 := by omega
  rw [if_neg h1]
  rcases h with h | h
  · rw [if_pos h.2]
  · rw [if_neg (by omega), if_neg (by omega), if_pos h.2]

/-- A place found below the registers' end is a register, and its offset is where it was found. -/
theorem locate_low {off : Nat} (h4 : off % 4 = 0) (h : off < 0x060) : ∃ r, locate off = .reg r ∧ regOffset r = off := by
  obtain ⟨k, rfl⟩ : ∃ k, off = 4 * k := ⟨off / 4, by omega⟩
  have hk : k < 24 := by omega
  interval_cases k <;> exact ⟨_, rfl, rfl⟩

/-- A place found among the TXBUF words is a TXBUF byte, and its offset is where it was found. -/
theorem locate_mid {off : Nat} (h4 : off % 4 = 0) (h : 0x200 ≤ off ∧ off < 0x224) :
    ∃ i, locate off = .txbuf i ∧ 0x200 + 4 * i.val = off := by
  have hi : (off - 0x200) / 4 < 9 := by omega
  refine ⟨⟨(off - 0x200) / 4, hi⟩, ?_, by simp; omega⟩
  have : off = 0x200 + 4 * ((⟨(off - 0x200) / 4, hi⟩ : Fin 9) : Nat) := by simp; omega
  conv_lhs => rw [this]
  exact locate_txbuf _

/-- What is found at an aligned offset has that offset. -/
theorem locationOffset_locate {off : Nat} (h4 : off % 4 = 0) : locationOffset (locate off) = off := by
  by_cases h1 : off < 0x060
  · obtain ⟨r, hr, ho⟩ := locate_low h4 h1
    rw [hr]; exact ho
  by_cases h2 : off < 0x200
  · rw [locate_reserved (.inl ⟨by omega, h2⟩)]; rfl
  by_cases h3 : off < 0x224
  · obtain ⟨i, hi, ho⟩ := locate_mid h4 ⟨by omega, h3⟩
    rw [hi]; exact ho
  by_cases h5 : off < 0x400
  · rw [locate_reserved (.inr ⟨by omega, h5⟩)]; rfl
  · obtain ⟨i, rfl⟩ : ∃ i, off = 0x400 + 4 * i := ⟨(off - 0x400) / 4, by omega⟩
    rw [locate_rxbuf]; rfl

/-- The admitted accesses (R205). -/
theorem accessOffset_eq_ok {p : Params} {a : Access} {off : Nat} :
    accessOffset p a = .ok off ↔ a.width = .w32 ∧ a.addr = p.blockBase + off ∧ off < p.windowSize ∧ off % 4 = 0 := by
  unfold accessOffset
  split_ifs with h1 h2 h3
  · exact ⟨nofun, fun h => absurd h.1 h1⟩
  · exact ⟨nofun, fun h => by omega⟩
  · exact ⟨nofun, fun h => by omega⟩
  · simp only [Except.ok.injEq]
    constructor
    · rintro rfl; exact ⟨not_not.1 h1, by omega, by omega, by omega⟩
    · intro h; omega

/-- A refused access is one R205 names. -/
theorem accessOffset_eq_error {p : Params} {a : Access} :
    (∃ r, accessOffset p a = .error r) ↔ (a.width ≠ .w32 ∨ a.addr < p.blockBase ∨ p.blockBase + p.windowSize ≤ a.addr ∨
      (a.addr - p.blockBase) % 4 ≠ 0) := by
  unfold accessOffset
  split_ifs with h1 h2 h3
  · exact ⟨fun _ => .inl h1, fun _ => ⟨_, rfl⟩⟩
  · exact ⟨fun _ => .inr (by omega), fun _ => ⟨_, rfl⟩⟩
  · exact ⟨fun _ => .inr (.inr (.inr h3)), fun _ => ⟨_, rfl⟩⟩
  · refine ⟨fun ⟨_, h⟩ => (nomatch h), fun h => ?_⟩
    rcases h with h | h
    · exact absurd h h1
    · omega

/-- The places of the window lie inside it, at multiples of 4. -/
theorem locationOffset_inside {p : Params} {l : Location} (h : l.wf p = true) :
    locate (locationOffset l) = l ∧ locationOffset l < p.windowSize ∧ locationOffset l % 4 = 0 := by
  cases l with
  | reg r =>
    refine ⟨locate_reg r, ?_, by cases r <;> rfl⟩
    have : regOffset r < 0x400 := by cases r <;> decide
    exact Nat.lt_of_lt_of_le this (Nat.le_add_right _ _)
  | txbuf i =>
    refine ⟨locate_txbuf i, ?_, by simp [locationOffset]⟩
    simp only [locationOffset, Params.windowSize]
    omega
  | rxbuf i =>
    simp only [Location.wf, decide_eq_true_eq] at h
    refine ⟨locate_rxbuf i, ?_, by simp [locationOffset]⟩
    simp only [locationOffset, Params.windowSize]
    omega
  | reserved off =>
    simp only [Location.wf, Bool.and_eq_true, Bool.or_eq_true, beq_iff_eq, decide_eq_true_eq] at h
    refine ⟨locate_reserved h.2, ?_, h.1⟩
    simp only [locationOffset, Params.windowSize]
    omega

/-- A read of a place of the window. -/
theorem hostAccess_read {s : State} {l : Location} (h : l.wf s.params = true) :
    hostAccess (readAccess s.params l) s = .next (pushReturned (readLocation s l) s) := by
  obtain ⟨h1, h2, h3⟩ := locationOffset_inside h
  have : accessOffset s.params (readAccess s.params l) = .ok (locationOffset l) := accessOffset_eq_ok.2 ⟨rfl, rfl, h2, h3⟩
  rw [hostAccess, this]
  show Host.Outcome.next (pushReturned (readLocation s (locate (locationOffset l))) s) = _
  rw [h1]

/-- A write to a place of the window. -/
theorem hostAccess_write {s : State} {l : Location} {w : Word} (h : l.wf s.params = true) :
    hostAccess (writeAccess s.params l w) s = hostWrite l w s := by
  obtain ⟨h1, h2, h3⟩ := locationOffset_inside h
  have : accessOffset s.params (writeAccess s.params l w) = .ok (locationOffset l) := accessOffset_eq_ok.2 ⟨rfl, rfl, h2, h3⟩
  rw [hostAccess, this]
  show hostWrite (locate (locationOffset l)) w s = _
  rw [h1]

/-- A CMD write is the write to the place CMD. -/
theorem cmdWrite_eq (p : Params) (w : Word) : cmdWrite p w = writeAccess p (.reg .cmd) w := rfl

/-- The step of a coming event. -/
theorem step_cons {s : State} {e : Event} {es : List Event} (h : s.pending = e :: es) :
    step s = runEvent e (setPending es s) := by
  simp only [step, h]

/-- The step of a coming read. -/
theorem step_read {s : State} {l : Location} {es : List Event} (hl : l.wf s.params = true)
    (h : s.pending = .access (readAccess s.params l) :: es) :
    step s = .next (pushReturned (readLocation s l) (setPending es s)) := by
  rw [step_cons h]
  exact hostAccess_read (s := setPending es s) hl

/-- The step of a coming write. -/
theorem step_write {s : State} {l : Location} {w : Word} {es : List Event} (hl : l.wf s.params = true)
    (h : s.pending = .access (writeAccess s.params l w) :: es) : step s = hostWrite l w (setPending es s) := by
  rw [step_cons h]
  exact hostAccess_write (s := setPending es s) hl

/-- The step of a coming CMD write (R203). -/
theorem step_cmd {s : State} {w : Word} {es : List Event} (h : s.pending = .access (cmdWrite s.params w) :: es) :
    step s = runCommand w (setPending es s) := by
  rw [step_write (l := .reg .cmd) rfl h]
  rfl

/-- Everything a step that answers a state can be. -/
inductive StepCase (s t : State) : Prop where
  | idle (hp : s.pending = []) (ht : t = s)
  | reset (es : List Event) (hp : s.pending = .reset :: es) (ht : t = assertReset (setPending es s))
  | read (l : Location) (es : List Event) (hp : s.pending = .access (readAccess s.params l) :: es)
      (ht : t = pushReturned (readLocation s l) (setPending es s))
  | writeReg (r : Reg) (w : Word) (es : List Event) (hr : r ≠ .cmd)
      (hp : s.pending = .access (writeAccess s.params (.reg r) w) :: es)
      (ht : t = Sys2Proof.Machine.writeReg w (setPending es s) r)
  | writeRx (i : Nat) (w : Word) (es : List Event) (hi : i < s.params.bufBytes)
      (hp : s.pending = .access (writeAccess s.params (.rxbuf i) w) :: es)
      (ht : t = setRxByte i (w.setWidth 8) (setPending es s))
  | ignored (es : List Event) (e : Event) (hp : s.pending = e :: es) (ht : t = setPending es s)
  | command (w : Word) (i : Instr) (es : List Event) (hp : s.pending = .access (cmdWrite s.params w) :: es)
      (hd : decode w = .ok i) (ht : exec i (setPending es s) = .next t)
  | illegal (w : Word) (e : DecodeError) (es : List Event) (hp : s.pending = .access (cmdWrite s.params w) :: es)
      (hd : decode w = .error e) (ht : t = execIllegal w (setPending es s))

/-- What a step can do, once: one of these cases, with the event that caused it and the state it gives. -/
theorem step_cases {s t : State} (h : step s = .next t) : StepCase s t := by
  cases hp : s.pending with
  | nil => simp only [step, hp] at h; cases h; exact .idle hp rfl
  | cons e es =>
    rw [step_cons hp] at h
    cases e with
    | reset => cases h; exact .reset es hp rfl
    | access a =>
      simp only [runEvent, hostAccess, setPending_params] at h
      cases ha : accessOffset s.params a with
      | error r => rw [ha] at h; cases h
      | ok off =>
        obtain ⟨hw, hadr, hlt, h4⟩ := accessOffset_eq_ok.1 ha
        obtain ⟨width, addr, dir⟩ := a
        simp only at hw hadr
        have hoff := locationOffset_locate h4
        subst hw hadr
        rw [ha] at h
        dsimp only at h
        generalize hl : locate off = l at h hoff
        cases dir with
        | read =>
          cases h
          exact .read l es (by rw [hp, readAccess, hoff]) rfl
        | write w =>
          have hp' : s.pending = .access (writeAccess s.params l w) :: es := by rw [hp, writeAccess, hoff]
          cases l with
          | reg r =>
            by_cases hr : r = .cmd
            · subst hr
              simp only [hostWrite, if_true, runCommand] at h
              cases hd : decode w with
              | ok i => rw [hd] at h; exact .command w i es hp' hd h
              | error e => rw [hd] at h; cases h; exact .illegal w e es hp' hd rfl
            · simp only [hostWrite, hr, if_false] at h
              cases h
              exact .writeReg r w es hr hp' rfl
          | txbuf i => cases h; exact .ignored es _ hp rfl
          | rxbuf i =>
            cases h
            refine .writeRx i w es ?_ hp' rfl
            simp only [locationOffset] at hoff
            simp only [Params.windowSize] at hlt
            omega
          | reserved o => cases h; exact .ignored es _ hp rfl

end Sys2Proof.Machine
end

