-- ==== Sys2Proof/Laws/Float.lean ====
section
/-! SUPPORT. Laws of the float unit (spec/42_float.md): the fields and bounds of a decoded result, what rounding to nearest
does, and the values of the binary64 patterns it builds. -/

namespace Sys2Proof.Machine

open Sys2Proof

/-! ### Decoding -/

theorem floatSpecValid_iff {sp : FloatSpec} : floatSpecValid sp = true ↔ sp.signBits = 1 ∧ floatWidth sp ≤ 64 := by
  unfold floatSpecValid Config.fltInWidth
  rw [Bool.and_eq_true, beq_iff_eq, decide_eq_true_eq]

/-- A special value: an all-ones exponent field (R505). -/
theorem floatResult_special {sp : FloatSpec} {n : Nat} (h : (floatFields sp n).ef = 2 ^ sp.exponentBits - 1) :
    floatResult sp n = { cls := if (floatFields sp n).mf = 2 ^ sp.mantissaBits - 1 then .nan else .infinity,
                         sign := (floatFields sp n).sign, sig := 0, q := 0 } := by
  simp only [floatResult, if_pos h]

/-- A finite value: any other exponent field (R506 to R508). -/
theorem floatResult_finite {sp : FloatSpec} {n : Nat} (h : (floatFields sp n).ef ≠ 2 ^ sp.exponentBits - 1) :
    floatResult sp n = { cls := .finite, sign := (floatFields sp n).sign,
                         sig := implicitTerm (floatFields sp n).ef * 2 ^ sp.mantissaBits + (floatFields sp n).mf,
                         q := (floatFields sp n).ef - floatBias sp - sp.mantissaBits } := by
  simp only [floatResult, if_neg h]

theorem floatFields_mf_lt (sp : FloatSpec) (n : Nat) : (floatFields sp n).mf < 2 ^ sp.mantissaBits :=
  Nat.mod_lt _ (Nat.two_pow_pos _)

theorem floatFields_ef_lt (sp : FloatSpec) (n : Nat) : (floatFields sp n).ef < 2 ^ sp.exponentBits :=
  Nat.mod_lt _ (Nat.two_pow_pos _)

theorem implicitTerm_le (ef : Nat) : implicitTerm ef ≤ 1 := by
  unfold implicitTerm; split <;> omega

/-- SIG of any result is below 2^(MB+1) (R508). -/
theorem floatResult_sig_lt (sp : FloatSpec) (n : Nat) : (floatResult sp n).sig < 2 ^ (sp.mantissaBits + 1) := by
  by_cases h : (floatFields sp n).ef = 2 ^ sp.exponentBits - 1
  · rw [floatResult_special h]; exact Nat.two_pow_pos _
  · rw [floatResult_finite h]
    have h1 := floatFields_mf_lt sp n
    have h2 := Nat.mul_le_mul_right (2 ^ sp.mantissaBits) (implicitTerm_le (floatFields sp n).ef)
    simp only [Nat.pow_succ]
    omega

/-- A finite result needs an exponent bit (R504, R511). -/
theorem exponentBits_pos_of_finite {sp : FloatSpec} {n : Nat} (h : (floatFields sp n).ef ≠ 2 ^ sp.exponentBits - 1) :
    1 ≤ sp.exponentBits := by
  by_contra h0
  have h0 : sp.exponentBits = 0 := by omega
  have := floatFields_ef_lt sp n
  rw [h0] at this h
  omega

/-- Q of any result of a valid spec fits 64-bit two's complement with room to spare (R508). -/
theorem floatResult_q_bounds {sp : FloatSpec} (hv : floatSpecValid sp = true) (n : Nat) :
    |(floatResult sp n).q| < 2 ^ 62 + 63 := by
  obtain ⟨h1, hw⟩ := floatSpecValid_iff.1 hv
  by_cases h : (floatFields sp n).ef = 2 ^ sp.exponentBits - 1
  · rw [floatResult_special h]; norm_num
  · rw [floatResult_finite h]
    have he := exponentBits_pos_of_finite h
    have hlt := floatFields_ef_lt sp n
    obtain ⟨k, hk⟩ : ∃ k, sp.exponentBits = k + 1 := ⟨sp.exponentBits - 1, by omega⟩
    have hkm : k + sp.mantissaBits ≤ 62 := by simp only [floatWidth] at hw; omega
    have hpow : 2 ^ k ≤ 2 ^ 62 := Nat.pow_le_pow_right (by norm_num) (by omega)
    rw [hk] at h hlt
    simp only [floatBias, hk, Nat.add_sub_cancel]
    have hb : ((2 : Int) ^ k) = ((2 ^ k : Nat) : Int) := by push_cast; rfl
    rw [Nat.pow_succ] at h hlt
    rw [hb, abs_lt]
    generalize 2 ^ k = b at *
    omega

/-- A finite result has at most 62 mantissa bits, so SIG is below 2^63 (R508). -/
theorem floatResult_sig_lt_of_valid {sp : FloatSpec} (hv : floatSpecValid sp = true) (n : Nat) :
    (floatResult sp n).sig < 2 ^ 63 := by
  obtain ⟨h1, hw⟩ := floatSpecValid_iff.1 hv
  by_cases h : (floatFields sp n).ef = 2 ^ sp.exponentBits - 1
  · rw [floatResult_special h]; norm_num
  · have he := exponentBits_pos_of_finite h
    refine lt_of_lt_of_le (floatResult_sig_lt sp n) (Nat.pow_le_pow_right (by norm_num) ?_)
    simp only [floatWidth] at hw
    omega

/-! ### Rounding -/

/-- `roundShift` is within half a unit, and even where it is exactly half a unit away (R13). -/
theorem roundShift_spec (m r : Nat) :
    2 * (roundShift m r * 2 ^ r) ≤ 2 * m + 2 ^ r ∧ 2 * m ≤ 2 * (roundShift m r * 2 ^ r) + 2 ^ r ∧
    (2 * (roundShift m r * 2 ^ r) = 2 * m + 2 ^ r ∨ 2 * m = 2 * (roundShift m r * 2 ^ r) + 2 ^ r →
      roundShift m r % 2 = 0) := by
  have hd := Nat.div_add_mod m (2 ^ r)
  have hl := Nat.mod_lt m (Nat.two_pow_pos r)
  have hc : 2 ^ r * (m / 2 ^ r) = m / 2 ^ r * 2 ^ r := Nat.mul_comm _ _
  unfold roundShift
  dsimp only
  split
  · rw [Nat.add_mul, Nat.one_mul]
    omega
  · omega

/-- What `roundShift` gives, as a rational: the nearest natural to `m / 2^r`. -/
theorem roundShift_rat (m r : Nat) :
    |(m : ℚ) - roundShift m r * 2 ^ r| ≤ 2 ^ r / 2 ∧
    (|(m : ℚ) - roundShift m r * 2 ^ r| = 2 ^ r / 2 → roundShift m r % 2 = 0) := by
  obtain ⟨h1, h2, h3⟩ := roundShift_spec m r
  have h1' : 2 * ((roundShift m r : ℚ) * 2 ^ r) ≤ 2 * m + 2 ^ r := by exact_mod_cast h1
  have h2' : 2 * (m : ℚ) ≤ 2 * (roundShift m r * 2 ^ r) + 2 ^ r := by exact_mod_cast h2
  refine ⟨abs_le.2 ⟨by linarith, by linarith⟩, fun h => h3 ?_⟩
  have hp : (0 : ℚ) ≤ 2 ^ r / 2 := by positivity
  rcases (abs_eq hp).1 h with h | h
  · exact .inr (by exact_mod_cast (by linarith : 2 * (m : ℚ) = 2 * (roundShift m r * 2 ^ r) + 2 ^ r))
  · exact .inl (by exact_mod_cast (by linarith : 2 * ((roundShift m r : ℚ) * 2 ^ r) = 2 * m + 2 ^ r))

/-- The leading bit of `sig × 2^q` has the exponent `log2 sig + q`. -/
theorem leading_exponent {sig : Nat} (h : sig ≠ 0) (q : Int) :
    (2 : ℚ) ^ ((sig.log2 : Int) + q) ≤ sig * 2 ^ q ∧ (sig : ℚ) * 2 ^ q < 2 ^ ((sig.log2 : Int) + q + 1) := by
  have h1 := Nat.log2_self_le h
  have h2 := Nat.lt_log2_self (n := sig)
  have hq : (0 : ℚ) < 2 ^ q := by positivity
  have h1' : (2 : ℚ) ^ sig.log2 ≤ sig := by exact_mod_cast h1
  have h2' : (sig : ℚ) < 2 ^ (sig.log2 + 1) := by exact_mod_cast h2
  constructor
  · rw [zpow_add₀ (by norm_num), zpow_natCast]
    exact mul_le_mul_of_nonneg_right h1' hq.le
  · rw [show (sig.log2 : Int) + q + 1 = ((sig.log2 + 1 : Nat) : Int) + q by push_cast; ring, zpow_add₀ (by norm_num),
      zpow_natCast]
    exact mul_lt_mul_of_pos_right h2' hq

/-- Rounding to a multiple of `2^u`: the natural that `f64Magnitude` picks. -/
theorem round_to_unit (sig : Nat) (q u : Int) :
    let m := if u ≤ q then sig * 2 ^ (q - u).toNat else roundShift sig (u - q).toNat
    |(sig : ℚ) * 2 ^ q - m * 2 ^ u| ≤ 2 ^ u / 2 ∧
    (|(sig : ℚ) * 2 ^ q - m * 2 ^ u| = 2 ^ u / 2 → m % 2 = 0) ∧
    (u ≤ q → (m : ℚ) * 2 ^ u = sig * 2 ^ q) := by
  have hu : (0 : ℚ) < 2 ^ u := by positivity
  dsimp only
  split
  · rename_i h
    have he : ((sig * 2 ^ (q - u).toNat : Nat) : ℚ) * 2 ^ u = sig * 2 ^ q := by
      push_cast
      rw [mul_assoc, ← zpow_natCast, ← zpow_add₀ (by norm_num), Int.toNat_of_nonneg (by omega)]
      congr 2
      ring
    rw [he, sub_self, abs_zero]
    exact ⟨by positivity, fun h => absurd h (by positivity), fun _ => rfl⟩
  · rename_i h
    have hr : (2 : ℚ) ^ u = 2 ^ (u - q).toNat * 2 ^ q := by
      rw [← zpow_natCast, ← zpow_add₀ (by norm_num), Int.toNat_of_nonneg (by omega)]
      congr 1
      ring
    have hq : (0 : ℚ) < 2 ^ q := by positivity
    generalize (u - q).toNat = r at hr
    obtain ⟨h1, h2⟩ := roundShift_rat sig r
    have hx : (sig : ℚ) * 2 ^ q - roundShift sig r * 2 ^ u = (sig - roundShift sig r * 2 ^ r) * 2 ^ q := by
      rw [hr]; ring
    rw [hx, abs_mul, abs_of_pos hq, hr, show (2 : ℚ) ^ r * 2 ^ q / 2 = 2 ^ r / 2 * 2 ^ q by ring]
    exact ⟨mul_le_mul_of_nonneg_right h1 hq.le, fun hh => h2 (mul_right_cancel₀ hq.ne' hh), fun hh => absurd hh h⟩

/-- What `f64Magnitude` gives for a nonzero significand: Infinity from 2^1024 on, zero below half the least subnormal, and
else a multiple `m` of the unit in the last place `2^u`, nearest to the exact value with ties to even. -/
theorem f64Magnitude_cases {sig : Nat} (h : sig ≠ 0) (q : Int) :
    ((2 : ℚ) ^ 1024 ≤ sig * 2 ^ q ∧ f64Magnitude sig q = f64InfBits) ∨
    ((sig : ℚ) * 2 ^ q < 2 ^ (-1075 : Int) ∧ f64Magnitude sig q = 0) ∨
    ∃ (k m : Nat), k ≤ 2045 ∧ m ≤ 2 ^ 53 ∧ f64Magnitude sig q = k * 2 ^ 52 + m ∧
      (k ≠ 0 → 2 ^ 52 ≤ m ∧ (2 : ℚ) ^ ((k : Int) - 1022) ≤ sig * 2 ^ q) ∧
      (sig : ℚ) * 2 ^ q < 2 ^ ((k : Int) - 1021) ∧
      |(sig : ℚ) * 2 ^ q - m * 2 ^ ((k : Int) - 1074)| ≤ 2 ^ ((k : Int) - 1074) / 2 ∧
      (|(sig : ℚ) * 2 ^ q - m * 2 ^ ((k : Int) - 1074)| = 2 ^ ((k : Int) - 1074) / 2 → m % 2 = 0) ∧
      ((k : Int) - 1074 ≤ q → (m : ℚ) * 2 ^ ((k : Int) - 1074) = sig * 2 ^ q) ∧
      (k : Int) = max ((sig.log2 : Int) + q + 1022) 0 := by
  obtain ⟨hlo, hhi⟩ := leading_exponent h q
  simp only [f64Magnitude, if_neg h]
  set e : Int := (sig.log2 : Int) + q with he
  set x : ℚ := (sig : ℚ) * 2 ^ q with hx
  by_cases h1 : 1023 < e
  · rw [if_pos h1]
    refine .inl ⟨le_trans ?_ hlo, rfl⟩
    rw [← zpow_natCast]
    exact zpow_le_zpow_right₀ (by norm_num) (by push_cast; omega)
  rw [if_neg h1]
  by_cases h2 : e < -1075
  · rw [if_pos h2]
    exact .inr (.inl ⟨lt_of_lt_of_le hhi (zpow_le_zpow_right₀ (by norm_num) (by omega)), rfl⟩)
  rw [if_neg h2]
  set u : Int := max (e - 52) (-1074) with hu
  obtain ⟨hr1, hr2, hr3⟩ := round_to_unit sig q u
  generalize (if u ≤ q then sig * 2 ^ (q - u).toNat else roundShift sig (u - q).toNat) = m at hr1 hr2 hr3
  have hk : ((u + 1074).toNat : Int) = u + 1074 := Int.toNat_of_nonneg (by omega)
  have hu0 : (0 : ℚ) < 2 ^ u := by positivity
  rw [← hx] at hr1 hr2 hr3
  have hxu : x < 2 ^ (53 : Nat) * 2 ^ u := by
    rw [← zpow_natCast, ← zpow_add₀ (by norm_num)]
    exact lt_of_lt_of_le hhi (zpow_le_zpow_right₀ (by norm_num) (by push_cast; omega))
  have hm : m ≤ 2 ^ 53 := by
    by_contra hc
    have hc' : (2 : ℚ) ^ 53 + 1 ≤ m := by exact_mod_cast Nat.lt_of_not_le hc
    have hmu := mul_le_mul_of_nonneg_right hc' hu0.le
    have := (abs_le.1 hr1).1
    nlinarith
  refine .inr (.inr ⟨(u + 1074).toNat, m, by omega, hm, rfl, fun hne => ?_, ?_, ?_, ?_, ?_, ?_⟩)
  · have hue : u = e - 52 := by omega
    have hxl : 2 ^ (52 : Nat) * 2 ^ u ≤ x := by
      rw [← zpow_natCast, ← zpow_add₀ (by norm_num)]
      refine le_trans (zpow_le_zpow_right₀ (by norm_num) ?_) hlo
      push_cast; omega
    refine ⟨?_, ?_⟩
    · by_contra hc
      have hc' : (m : ℚ) + 1 ≤ 2 ^ 52 := by exact_mod_cast Nat.lt_of_not_le hc
      have hmu := mul_le_mul_of_nonneg_right hc' hu0.le
      have := (abs_le.1 hr1).2
      nlinarith
    · rw [hk]
      refine le_trans (zpow_le_zpow_right₀ (by norm_num) ?_) hlo
      omega
  · rw [hk]
    exact lt_of_lt_of_le hhi (zpow_le_zpow_right₀ (by norm_num) (by omega))
  · rw [hk, add_sub_cancel_right]; exact hr1
  · rw [hk, add_sub_cancel_right]; exact hr2
  · rw [hk, add_sub_cancel_right]; exact hr3
  · rw [hk]; omega

/-- The bits below the sign bit fit 63 bits. -/
theorem f64Magnitude_lt (sig : Nat) (q : Int) : f64Magnitude sig q ≤ f64InfBits := by
  by_cases h : sig = 0
  · simp [f64Magnitude, h]
  · rcases f64Magnitude_cases h q with ⟨-, h⟩ | ⟨-, h⟩ | ⟨k, m, hk, hm, h, -⟩
    · rw [h]
    · rw [h]; exact Nat.zero_le _
    · rw [h, f64InfBits]; omega

/-! ### Binary64 patterns -/

/-- The parts of a pattern built from a sign and 63 bits. -/
theorem f64_parts (sign : Bool) {v : Nat} (hv : v < 2 ^ 63) :
    (BitVec.ofNat 64 (f64SignBit sign + v)).msb = sign ∧
    f64ExpField (BitVec.ofNat 64 (f64SignBit sign + v)) = v / 2 ^ 52 ∧
    f64Fraction (BitVec.ofNat 64 (f64SignBit sign + v)) = v % 2 ^ 52 := by
  have hs : f64SignBit sign = sign.toNat * 2 ^ 63 := by cases sign <;> rfl
  have hb := Bool.toNat_le sign
  have hlt : f64SignBit sign + v < 2 ^ 64 := by omega
  refine ⟨?_, ?_, ?_⟩
  · rw [BitVec.msb_eq_decide, BitVec.toNat_ofNat, Nat.mod_eq_of_lt hlt, hs]
    cases sign
    · exact decide_eq_false (by simpa using hv)
    · exact decide_eq_true (by simp)
  · rw [f64ExpField, BitVec.extractLsb'_toNat, BitVec.toNat_ofNat, Nat.mod_eq_of_lt hlt, Nat.shiftRight_eq_div_pow]
    omega
  · rw [f64Fraction, BitVec.extractLsb'_toNat, BitVec.toNat_ofNat, Nat.mod_eq_of_lt hlt, Nat.shiftRight_eq_div_pow]
    omega

/-- A pattern of `k × 2^52 + m`, with `m` a full significand or `k` zero, has the value `m × 2^(k − 1074)`. -/
theorem f64Value_build (sign : Bool) {k m : Nat} (hk : k ≤ 2045) (hm : m ≤ 2 ^ 53) (hn : k ≠ 0 → 2 ^ 52 ≤ m) :
    f64Value (BitVec.ofNat 64 (f64SignBit sign + (k * 2 ^ 52 + m))) = exactValue sign m ((k : Int) - 1074) := by
  obtain ⟨h1, h2, h3⟩ := f64_parts sign (v := k * 2 ^ 52 + m) (by omega)
  rw [f64Value, h1, h2, h3]
  by_cases hm1 : m < 2 ^ 52
  · have hk0 : k = 0 := by
      by_contra h; have := hn h; omega
    subst hk0
    have e1 : (0 * 2 ^ 52 + m) / 2 ^ 52 = 0 := by omega
    have e2 : (0 * 2 ^ 52 + m) % 2 ^ 52 = m := by omega
    rw [e1, if_pos rfl, e2]
    norm_num
  · by_cases hm2 : m = 2 ^ 53
    · subst hm2
      have e1 : (k * 2 ^ 52 + 2 ^ 53) / 2 ^ 52 = k + 2 := by omega
      have e2 : (k * 2 ^ 52 + 2 ^ 53) % 2 ^ 52 = 0 := by omega
      rw [e1, if_neg (by omega), e2, exactValue, exactValue,
        show ((k + 2 : Nat) : Int) - 1075 = (k : Int) - 1074 + 1 by push_cast; ring, zpow_add₀ (by norm_num)]
      push_cast
      ring
    · have e1 : (k * 2 ^ 52 + m) / 2 ^ 52 = k + 1 := by omega
      have e2 : 2 ^ 52 + (k * 2 ^ 52 + m) % 2 ^ 52 = m := by omega
      rw [e1, if_neg (by omega), e2]
      congr 1
      push_cast; ring

/-- The value read from any pattern is a whole multiple of a unit that is not below the least subnormal, with a significand
of 53 bits. -/
theorem f64Value_grid (y : DWord) : ∃ z j : Int, -1074 ≤ j ∧ |z| < 2 ^ 53 ∧ f64Value y = z * (2 : ℚ) ^ j := by
  have hf : f64Fraction y < 2 ^ 52 := (y.extractLsb' 0 52).isLt
  by_cases h0 : f64ExpField y = 0
  · refine ⟨(if y.msb then -1 else 1) * f64Fraction y, -1074, le_refl _, ?_, ?_⟩
    · cases y.msb <;> simp <;> omega
    · rw [f64Value, if_pos h0, exactValue]
      generalize (2 : ℚ) ^ (-1074 : Int) = c
      cases y.msb <;> push_cast <;> rfl
  · refine ⟨(if y.msb then -1 else 1) * (2 ^ 52 + f64Fraction y : Nat), (f64ExpField y : Int) - 1075, by omega, ?_, ?_⟩
    · rw [abs_lt]
      cases y.msb <;> simp <;> omega
    · rw [f64Value, if_neg h0, exactValue]
      cases y.msb <;> push_cast <;> rfl

end Sys2Proof.Machine
end

