-- ==== Sys2Proof/Laws/PerInstr.lean ====
section
/-! SUPPORT. What holds of every command as syntax (spec/30_encoding.md R300, R303, R309): one lemma per constructor. -/

namespace Sys2Proof.Laws.Encoding

/-- The command word of `i` is `zext_32(OP)` with RSV = 0, and the decoder reads `i` back from it. -/
def Statement (i : Instr) : Prop :=
  i.wf = true ∧ opField (encode i) = opcode i ∧ rsvField (encode i) = 0 ∧ decode (encode i) = .ok i

theorem nop : Statement .nop := by unfold Statement; decide

theorem cksInit : Statement .cksInit := by unfold Statement; decide

theorem cksByte : Statement .cksByte := by unfold Statement; decide

theorem cksBuf : Statement .cksBuf := by unfold Statement; decide

theorem frmEnc : Statement .frmEnc := by unfold Statement; decide

theorem frmDec : Statement .frmDec := by unfold Statement; decide

theorem fltDec : Statement .fltDec := by unfold Statement; decide

end Sys2Proof.Laws.Encoding
end

