-- ==== Sys2Proof/Tests/Slice0.lean ====
section
/-! SUPPORT. Tests from the spec's own encodings and vectors (spec/30_encoding.md R303, spec/95_test_vectors.md), the
well-formedness smoke tests, and a witness for the hypotheses of each statement of the obligations. -/

namespace Sys2Proof.Tests

open Sys2Proof.Machine

/-! ### Helpers -/

/-- The next state of an outcome, if it has one. -/
def after (o : Host.Outcome State Fault Refusal) : Option State :=
  match o with
  | .next t => some t
  | .fault _ => none
  | .refused _ => none

/-- The reason of a refused outcome. -/
def reason (o : Host.Outcome State Fault Refusal) : Option Refusal :=
  match o with
  | .next _ => none
  | .fault _ => none
  | .refused r => some r

/-- An outcome whose next state passes a check is that next state. -/
theorem next_of_after {o : Host.Outcome State Fault Refusal} {check : State → Bool} (h : (after o).any check = true) :
    ∃ t, o = .next t ∧ check t = true := by
  cases o with
  | next t => exact ⟨t, rfl, h⟩
  | fault r => exact nomatch r
  | refused r => exact absurd h (by simp [after])

/-- The words some registers read as after an outcome. -/
def words (rs : List Reg) (o : Host.Outcome State Fault Refusal) : Option (List Word) :=
  (after o).map fun t => rs.map (readReg t)

/-- The reset state with RXBUF[0..k) = `bs` and RXLEN = k (R308 `load_rx`). -/
def loaded (bs : List Byte) : State :=
  { State.reset with rxbuf := bs.zipIdx.map fun p => (p.2, p.1), rxlen := BitVec.ofNat 16 bs.length }

/-- `loaded` in a block whose BUF_BYTES is just the number of bytes. -/
def tight (bs : List Byte) : State :=
  { loaded bs with params := { blockBase := 0, bufBytes := bs.length } }

/-- The reset state with FLT_SPEC = {sb, eb, mb} and FLT_IN = n. -/
def floatState (sb eb mb : Byte) (n : DWord) : State :=
  { State.reset with fltSb := sb, fltEb := eb, fltMb := mb, fltIn := n }

/-- The reset state with one access to come. -/
def coming (a : Access) : State := { State.reset with pending := [.access a] }

/-- The parameters of a block that lies at 0x1000 and has the least BUF_BYTES. -/
def highParams : Params := { blockBase := 0x1000, bufBytes := 8 }

/-- The reset state of that block, with one access to come. -/
def comingHigh (a : Access) : State := { State.reset with params := highParams, pending := [.access a] }

/-- The response of V18 row 4, with its checksum 0x4C29. -/
def response12 : List Byte := [0x01, 0x04, 0x40, 0x0F, 0x01, 0x5B, 0x41, 0x20, 0x00, 0x00, 0x4C, 0x29]

/-- The response of V18 row 1: no payload. -/
def response8 : List Byte := [0x01, 0x04, 0x40, 0x0F, 0x01, 0x5B, 0x58, 0xB4]

/-! ### The command word: each word written out bit by bit from R300 and R303 -/

theorem test_decode_nop : decode 0b00000000000000000000000000000000#32 = .ok .nop := by decide

theorem test_decode_cks_init : decode 0b00000000000000000000000000000001#32 = .ok .cksInit := by decide

theorem test_decode_cks_byte : decode 0b00000000000000000000000000000010#32 = .ok .cksByte := by decide

theorem test_decode_cks_buf : decode 0b00000000000000000000000000000011#32 = .ok .cksBuf := by decide

theorem test_decode_frm_enc : decode 0b00000000000000000000000000010000#32 = .ok .frmEnc := by decide

theorem test_decode_frm_dec : decode 0b00000000000000000000000000010001#32 = .ok .frmDec := by decide

theorem test_decode_flt_dec : decode 0b00000000000000000000000000100000#32 = .ok .fltDec := by decide

/-- The table's numbering, and the step that runs a table word first after reset. -/
theorem test_table_words :
    [0x00, 0x01, 0x02, 0x03, 0x10, 0x11, 0x20].map (decodeTableWord 32) =
      [some .nop, some .cksInit, some .cksByte, some .cksBuf, some .frmEnc, some .frmDec, some .fltDec] ∧
    decodeTableWord 8 0x20 = some .fltDec ∧ decodeTableWord 32 0x100 = none ∧ decodeTableWord 40 0x100000001 = none := by
  decide

theorem test_with_fetch_word :
    words [.status] (step (State.reset.withFetchWord 32 0x10)) = some [0x00001000] := by decide

/-! ### Well-formedness: an ill-formed term for each check -/

theorem test_wf_instr : [Instr.nop, .cksInit, .cksByte, .cksBuf, .frmEnc, .frmDec, .fltDec].all Instr.wf = true := by decide

/-- R9, R200: BLOCK_BASE not aligned to 4; BUF_BYTES below 8; BUF_BYTES above 65535; and the two ends of the range. -/
theorem test_wf_params :
    ({ blockBase := 2, bufBytes := 256 } : Params).wf = false ∧ ({ blockBase := 0, bufBytes := 7 } : Params).wf = false ∧
    ({ blockBase := 0, bufBytes := 65536 } : Params).wf = false ∧ ({ blockBase := 4, bufBytes := 8 } : Params).wf = true ∧
    ({ blockBase := 0, bufBytes := 65535 } : Params).wf = true := by decide

/-- R205: a width that is not 32 bits; an address below and one past the window; an offset that is no multiple of 4; and the
last admitted offset. -/
theorem test_wf_access :
    ({ width := .w8, addr := 0x1000, dir := .read } : Access).wf highParams = false ∧
    ({ width := .w16, addr := 0x1000, dir := .read } : Access).wf highParams = false ∧
    ({ width := .w64, addr := 0x1000, dir := .read } : Access).wf highParams = false ∧
    ({ width := .w32, addr := 0x0FFC, dir := .read } : Access).wf highParams = false ∧
    ({ width := .w32, addr := 0x1420, dir := .read } : Access).wf highParams = false ∧
    ({ width := .w32, addr := 0x1002, dir := .read } : Access).wf highParams = false ∧
    ({ width := .w32, addr := 0x141C, dir := .read } : Access).wf highParams = true := by decide

/-- R122 to R124: an RXBUF index past the buffer; offsets that are not reserved, or are not aligned; and the ends of the two
reserved ranges. -/
theorem test_wf_location :
    (Location.rxbuf 8).wf highParams = false ∧ (Location.rxbuf 7).wf highParams = true ∧
    [0x05C, 0x062, 0x200, 0x220, 0x400].all (fun off => (Location.reserved off).wf highParams) = false ∧
    [0x05C, 0x062, 0x200, 0x220, 0x400].any (fun off => (Location.reserved off).wf highParams) = false ∧
    [0x060, 0x1FC, 0x224, 0x3FC].all (fun off => (Location.reserved off).wf highParams) = true := by decide

/-- R302, R305: a set RSV bit, and the reserved opcodes at the edges of their ranges. -/
theorem test_illegal_words :
    [0x00000100, 0x80000010, 0xFFFFFFFF].map decode = List.replicate 3 (.error .reservedBits) ∧
    [0x04, 0x0F, 0x12, 0x1F, 0x21, 0xFF].map decode = List.replicate 6 (.error .reservedOpcode) := by decide

/-! ### The commands, from V16 to V21 -/

/-- V16 row 1. -/
theorem test_nop :
    words [.status, .erracc] (exec .nop { State.reset with statusErr := 2, statusLastop := 0x11, erracc := 4 }) =
      some [0x00000000, 0x00000004] := by decide

/-- V16 row 2. -/
theorem test_cks_init :
    words [.crc, .status] (exec .cksInit { State.reset with crc := 0x58B4 }) = some [0x0000FFFF, 0x00000100] := by decide

/-- V16 row 3. -/
theorem test_cks_byte :
    words [.crc, .status] (exec .cksByte { State.reset with din := 0x01 }) = some [0x0000F1D1, 0x00000200] := by decide

/-- V16 row 6. -/
theorem test_cks_byte_seeded :
    words [.crc, .din] (exec .cksByte { State.reset with crc := 0x1234, din := 0x56 }) = some [0x00003C40, 0x56] := by decide

/-- V12, V16 row 8. -/
theorem test_cks_buf :
    words [.crc, .status] (exec .cksBuf (loaded [0x31, 0x32, 0x33, 0x34, 0x35, 0x36, 0x37, 0x38, 0x39])) =
      some [0x000029B1, 0x00000300] := by decide +kernel

/-- V16 row 11. -/
theorem test_cks_buf_too_long :
    words [.status, .erracc, .crc] (exec .cksBuf { State.reset with rxlen := 257, crc := 0x5C08 }) =
      some [0x00000306, 0x00000040, 0x00005C08] := by decide

/-- V1, V17 row 1. -/
theorem test_frm_enc :
    (after (exec .frmEnc { State.reset with frmCmd := 0x01, frmRegid := 0x400F015B })).map
      (fun t => (t.txbuf.toList, readReg t .txlen, readReg t .crc, readReg t .status)) =
    some ([0x2B, 0x01, 0x04, 0x40, 0x0F, 0x01, 0x5B, 0x58, 0xB4], 9, 0x000058B4, 0x00001000) := by decide +kernel

/-- V17 row 6. -/
theorem test_frm_enc_other_command :
    (after (exec .frmEnc { State.reset with frmCmd := 0xFF, frmRegid := 0xDEADBEEF })).map (fun t => t.txbuf.toList) =
    some [0x2B, 0xFF, 0x04, 0xDE, 0xAD, 0xBE, 0xEF, 0x17, 0xFE] := by decide +kernel

/-- V18 row 7: a payload of nine bytes. -/
theorem test_frm_dec :
    words [.status, .payloadLen, .rawHi, .rawLo, .rxCrc, .crc]
      (exec .frmDec (loaded [0x01, 0x04, 0x40, 0x0F, 0x01, 0x5B, 0x01, 0x02, 0x03, 0x04, 0x05, 0x06, 0x07, 0x08, 0x09, 0xB2, 0x90])) =
    some [0x00001100, 9, 0x02030405, 0x06070809, 0xB290, 0xB290] := by decide +kernel

/-- V19 row 4: a flipped payload bit. -/
theorem test_frm_dec_mismatch :
    words [.status, .erracc, .crc, .rxCrc, .payloadLen, .rawLo]
      (exec .frmDec (loaded [0x01, 0x04, 0x40, 0x0F, 0x01, 0x5B, 0x41, 0x20, 0x00, 0x01, 0x4C, 0x29])) =
    some [0x00001102, 0x04, 0x5C08, 0x4C29, 0, 0] := by decide +kernel

/-- V20 row 7: −16181625 × 2^−17. -/
theorem test_flt_dec :
    words [.status, .fltRes, .fltSigLo, .fltSigHi, .fltExpLo, .fltExpHi, .fltF64Lo, .fltF64Hi]
      (exec .fltDec (floatState 1 8 23 0xC2F6E979)) =
    some [0x00002000, 0x100, 0x00F6E979, 0, 0xFFFFFFEF, 0xFFFFFFFF, 0x20000000, 0xC05EDD2F] := by decide

/-- V20 row 30: 1.5 × 2^−1074, a tie that rounds to even. -/
theorem test_flt_dec_tie :
    words [.fltRes, .fltSigLo, .fltExpLo, .fltF64Lo, .fltF64Hi] (exec .fltDec (floatState 1 11 52 3)) =
    some [0x000, 3, 0xFFFFFBCD, 2, 0] := by decide

/-! ### Accesses and reset -/

/-- P4: the word 0x00000100 is illegal, with LASTOP = 0x00. -/
theorem test_step_illegal :
    words [.status, .erracc] (step (coming (cmdWrite Config.defaultParams 0x00000100))) = some [0x00000005, 0x20] := by decide

/-- R105, P4: the write-one-to-clear of ERRACC. -/
theorem test_step_erracc :
    words [.erracc] (step { coming (writeAccess Config.defaultParams (.reg .erracc) 0x04) with erracc := 0x66 }) =
      some [0x00000062] := by decide

/-- V16: `wr CRC, 0xABCD1234`. -/
theorem test_step_write_crc :
    words [.crc] (step (coming (writeAccess Config.defaultParams (.reg .crc) 0xABCD1234))) = some [0x00001234] := by decide

/-- R201: a read appends the word to what the host's reads returned. -/
theorem test_step_read :
    (after (step (comingHigh { width := .w32, addr := 0x1034, dir := .read }))).map (fun t => (t.returned, t.pending)) =
      some ([0x00170801], []) := by decide

/-- R205: the three refusals. -/
theorem test_step_refusals :
    reason (step (comingHigh { width := .w16, addr := 0x1000, dir := .read })) = some .accessWidth ∧
    reason (step (comingHigh { width := .w32, addr := 0x1420, dir := .read })) = some .outsideWindow ∧
    reason (step (comingHigh { width := .w32, addr := 0x0FFC, dir := .read })) = some .outsideWindow ∧
    reason (step (comingHigh { width := .w32, addr := 0x1002, dir := .read })) = some .misaligned := by decide

/-- R123: a host write of an RXBUF byte ignores w[31:8], and the byte reads back. -/
theorem test_step_write_rxbuf :
    (after (step (coming (writeAccess Config.defaultParams (.rxbuf 255) 0xABCDEF5A)))).map
      (fun t => readLocation t (.rxbuf 255)) = some 0x0000005A := by decide

/-- R404, V15: an odd count of digits. -/
theorem test_int_bytes : intBytes 0xABC 3 = [0xAB, 0xC0] ∧ checksum (intBytes 0x0104400F015B 12) = 0x58B4 := by decide +kernel

/-- R621, V9: the fifth counted failure ends the call. -/
theorem test_retry_bound : afterFailure 3 = some 4 ∧ afterFailure 4 = none ∧ attemptClass (some .checksumMismatch) = .counted := by
  decide

/-! ### Witnesses: for each statement with hypotheses, a state and operands that meet them, clause by clause -/

/-- DecodeReadsExactlyTheCommandWords: a word that is no command word. -/
theorem test_witness_no_command_word : ∀ i, (0x00000004 : Word) ≠ encode i := by intro i; cases i <;> decide

/-- StepRunsTheDecodedCommand. -/
theorem test_witness_step_runs : ∃ (s : State) (w : Word) (i : Instr) (es : List Event),
    s.pending = .access (cmdWrite s.params w) :: es ∧ decode w = .ok i :=
  ⟨comingHigh (cmdWrite highParams 0x11), 0x11, .frmDec, [], rfl, by decide⟩

/-- IllegalWordRecordsIllegalCommand: by RSV, under an assigned OP, and by OP at the edge of a reserved range. -/
theorem test_witness_illegal_word : ∃ (s : State) (w v : Word), w.extractLsb' 8 24 ≠ 0 ∧
    v.extractLsb' 0 8 ∉ [(0x00 : Byte), 0x01, 0x02, 0x03, 0x10, 0x11, 0x20] ∧
    s.pending = .access (cmdWrite s.params w) :: [.access (cmdWrite s.params v)] :=
  ⟨{ State.reset with pending := [.access (cmdWrite Config.defaultParams 0x110), .access (cmdWrite Config.defaultParams 0x0F)] },
    0x110, 0x0F, by decide, by decide, rfl⟩

/-- WindowMapIsOneToOne: the last place and the last offset of a window. -/
theorem test_witness_window : (Location.rxbuf 7).wf highParams = true ∧ 0x41C % 4 = 0 ∧
    0x41C < 0x400 + 4 * highParams.bufBytes ∧ locate 0x41C = .rxbuf 7 := by decide

/-- WindowOffsetsAreTheRegisterMap: the first and the last offset of each reserved range. -/
theorem test_witness_reserved_offsets : [0x060, 0x1FC, 0x224, 0x3FC].all (fun off => off % 4 == 0 &&
    ((decide (0x060 ≤ off) && decide (off ≤ 0x1FC)) || (decide (0x224 ≤ off) && decide (off ≤ 0x3FC)))) = true := by decide

/-- ReadReturnsTheWordAndChangesNothing. -/
theorem test_witness_read : ∃ (s : State) (l : Location) (es : List Event),
    l.wf s.params = true ∧ s.pending = .access (readAccess s.params l) :: es :=
  ⟨comingHigh (readAccess highParams (.rxbuf 7)), .rxbuf 7, [], by decide, rfl⟩

/-- RegisterWritesStoreTheWritableBits: an RW register with reserved bits, and an RO register. -/
theorem test_witness_register_writes : ∃ (s t : State) (w : Word),
    Reg.fltSpec ≠ .cmd ∧ Reg.fltSpec ≠ .erracc ∧ s.pending = .access (writeAccess s.params (.reg .fltSpec) w) :: [] ∧
    Reg.status ≠ .cmd ∧ Reg.status ≠ .erracc ∧ t.pending = .access (writeAccess t.params (.reg .status) w) :: [] :=
  ⟨coming (writeAccess Config.defaultParams (.reg .fltSpec) 0xFFFFFFFF),
    coming (writeAccess Config.defaultParams (.reg .status) 0xFFFFFFFF), 0xFFFFFFFF, by decide, by decide, rfl, by decide,
    by decide, rfl⟩

/-- ErraccWriteOneToClear. -/
theorem test_witness_erracc_write : ∃ (s : State) (w : Word) (es : List Event),
    s.pending = .access (writeAccess s.params (.reg .erracc) w) :: es :=
  ⟨coming (writeAccess Config.defaultParams (.reg .erracc) 0xFFFFFFFF), 0xFFFFFFFF, [], rfl⟩

/-- IgnoredWritesHaveNoEffect: a read-only register, the last TXBUF byte and the last reserved offset. -/
theorem test_witness_ignored_writes :
    (writableBits .cfg = 0 ∧ Reg.cfg ≠ .cmd ∧ Reg.cfg ≠ .erracc) ∧
    ∀ l ∈ [Location.reg .cfg, .txbuf 8, .reserved 0x3FC], ∃ (s : State) (w : Word) (es : List Event),
      l.wf s.params = true ∧ s.pending = .access (writeAccess s.params l w) :: es := by
  refine ⟨by decide, fun l h => ⟨coming (writeAccess Config.defaultParams l 0xFF), 0xFF, [], ?_, rfl⟩⟩
  simp only [List.mem_cons, List.not_mem_nil, or_false] at h
  obtain rfl | rfl | rfl := h <;> decide

/-- RxbufWriteStoresOneByte: the last byte of the buffer. -/
theorem test_witness_rxbuf_write : ∃ (s : State) (i : Nat) (w : Word) (es : List Event),
    i < s.params.bufBytes ∧ s.pending = .access (writeAccess s.params (.rxbuf i) w) :: es :=
  ⟨comingHigh (writeAccess highParams (.rxbuf 7) 0xFF), 7, 0xFF, [], by decide, rfl⟩

/-- WritesAreIdempotent: a write that changes the state. -/
theorem test_witness_idempotent : ∃ (l : Location) (w : Word) (s t : State),
    l ≠ .reg .cmd ∧ hostWrite l w s = .next t ∧ t.rxbuf ≠ s.rxbuf :=
  ⟨.rxbuf 3, 0x41, State.reset, _, by decide, rfl, by decide⟩

/-- ResetEventRestoresTheRegisters, from a state that is not the reset state. -/
theorem test_witness_reset_event : ∃ (s : State) (es : List Event), s.pending = .reset :: es ∧ s.crc ≠ 0xFFFF :=
  ⟨{ State.reset with crc := 1, pending := [.reset] }, [], rfl, by decide⟩

/-- UnwrittenRxbufBytesReadTheDraw: an unwritten byte beside a written one, and a reset. -/
theorem test_witness_unwritten : Memory.get? (loaded response8).rxbuf 8 = none ∧
    Memory.get? (loaded response8).rxbuf 7 = some 0xB4 ∧
    ∃ (s t : State) (es : List Event), s.pending = .reset :: es ∧ step s = .next t :=
  ⟨by decide, by decide, { loaded response8 with pending := [.reset] }, _, [], rfl, rfl⟩

/-- NopClearsStatusOnly: an all-zero OP under one RSV bit. -/
theorem test_witness_nop_rsv : (0x00000100 : Word).extractLsb' 0 8 = 0 ∧ (0x00000100 : Word).extractLsb' 8 24 ≠ 0 := by decide

/-- CksBufChecksTheBuffer: RXLEN one past BUF_BYTES, and equal to it. -/
theorem test_witness_cks_buf : ∃ s t : State, s.params.bufBytes < s.rxlen.toNat ∧ t.rxlen.toNat ≤ t.params.bufBytes :=
  ⟨{ State.reset with rxlen := 257 }, { State.reset with rxlen := 256 }, by decide, by decide⟩

/-- CrcBytesListingComputesTheChecksum. -/
theorem test_witness_crc_bytes : ∃ (bs : List Byte) (s : State) (es : List Event),
    bs ≠ [] ∧ s.pending = listing s.params (crcBytes bs) ++ es :=
  ⟨[0x31, 0x32], { State.reset with pending := listing Config.defaultParams (crcBytes [0x31, 0x32]) }, [], by decide,
    (List.append_nil _).symm⟩

/-- IntegerStreamBytes: an even and an odd count of digits at the largest value. -/
theorem test_witness_int_bytes : 0xFFFF < 16 ^ 4 ∧ 0xFFF < 16 ^ 3 ∧ 0 < 16 ^ 0 := by decide

/-- FrmDecValidatesAndUnpacks: L one past BUF_BYTES; L = 7; L = 8 = BUF_BYTES with a wrong and with a good checksum. -/
theorem test_witness_frm_dec : ∃ a b c d : State,
    (a.params.bufBytes = 8 ∧ a.rxlen.toNat = 9) ∧ (b.params.bufBytes = 8 ∧ b.rxlen.toNat = 7) ∧
    (c.params.bufBytes = 8 ∧ c.rxlen.toNat = 8 ∧
      checksum ((List.range 6).map (rxByte c)) ≠ rxByte c 6 ++ rxByte c 7) ∧
    (d.params.bufBytes = 8 ∧ d.rxlen.toNat = 8 ∧
      checksum ((List.range 6).map (rxByte d)) = rxByte d 6 ++ rxByte d 7) :=
  ⟨{ tight response8 with rxlen := 9 }, { tight response8 with rxlen := 7 },
    tight [0x01, 0x04, 0x40, 0x0F, 0x01, 0x5B, 0x58, 0xB5], tight response8, by decide, by decide, by decide +kernel, by decide +kernel⟩

/-- RawValueArithmetic, FrmDecMakesNoOtherCheck, SingleByteCorruptionIsDetected: FRM_DEC ends OK, with a payload. -/
theorem test_witness_frm_dec_ok : ∃ s t : State, exec .frmDec s = .next t ∧ t.statusErr = 0 ∧
    11 < s.rxlen.toNat ∧ (0x28 : Byte) ≠ rxByte s 11 := by
  obtain ⟨t, h, ht⟩ := next_of_after (o := exec .frmDec (tight response12))
    (check := fun t => t.statusErr = 0) (by decide +kernel)
  exact ⟨tight response12, t, h, of_decide_eq_true ht, by decide, by decide⟩

/-- FrmDecFollowsTheDecodeFunction: a length the buffer holds, under each outcome of the decode function. -/
theorem test_witness_decode_function :
    (tight response12).rxlen.toNat ≤ (tight response12).params.bufBytes ∧
    decodeResponse ((List.range 12).map (rxByte (tight response12))) = .ok 0x41200000 ∧
    decodeResponse ((List.range 7).map (rxByte (tight response12))) = .error .frameTooShort ∧
    decodeResponse ((List.range 11).map (rxByte (tight response12))) = .error .checksumMismatch := by
  decide +kernel

/-- ResponseRoundTrip, FrmDecAcceptsWellFormedResponses. -/
theorem test_witness_well_formed_response : ∃ (s : State) (h p : List Byte),
    h.length = 6 ∧ s.rxlen.toNat = 8 + p.length ∧ s.rxlen.toNat ≤ s.params.bufBytes ∧
    (∀ k < s.rxlen.toNat, rxByte s k = (h ++ p ++ beBytes 2 (checksum (h ++ p)).toNat).getD k 0) :=
  ⟨tight response12, response12.take 6, [0x41, 0x20, 0x00, 0x00], by decide, by decide, by decide, by decide +kernel⟩

/-- FltDecRejectsBadSpecThenBadInput: SB = 0 and SB = 2; W = 65; the least input out of range at W = 32 and
W = 63; and the largest input in range at W = 32 and W = 64. -/
theorem test_witness_flt_rejects :
    (floatState 0 8 23 0).fltSb ≠ 1 ∧ (floatState 2 8 22 0).fltSb ≠ 1 ∧
    64 < (floatState 1 8 56 0).fltSb.toNat + (floatState 1 8 56 0).fltEb.toNat + (floatState 1 8 56 0).fltMb.toNat ∧
    2 ^ 32 ≤ (floatState 1 8 23 0x100000000).fltIn.toNat ∧
    2 ^ 63 ≤ (floatState 1 10 52 0x8000000000000000).fltIn.toNat ∧ (floatState 1 8 23 0xFFFFFFFF).fltIn.toNat < 2 ^ 32 ∧
    (floatState 1 11 52 (-1)).fltSb.toNat + (floatState 1 11 52 (-1)).fltEb.toNat + (floatState 1 11 52 (-1)).fltMb.toNat = 64 := by
  decide

/-- FltDecSpecialValues: an Infinity, a NaN and the empty exponent field. -/
theorem test_witness_flt_special :
    (0xFF800000 < 2 ^ (1 + 8 + 23) ∧ 0xFF800000 / 2 ^ 23 % 2 ^ 8 = 2 ^ 8 - 1 ∧ 0xFF800000 % 2 ^ 23 ≠ 2 ^ 23 - 1) ∧
    (0xFFFFFFFF < 2 ^ (1 + 8 + 23) ∧ 0xFFFFFFFF / 2 ^ 23 % 2 ^ 8 = 2 ^ 8 - 1 ∧ 0xFFFFFFFF % 2 ^ 23 = 2 ^ 23 - 1) ∧
    (1 < 2 ^ (1 + 0 + 1) ∧ 1 / 2 ^ 1 % 2 ^ 0 = 2 ^ 0 - 1) := by decide

/-- FltDecFiniteValues, FiniteResultIsTheExactValue, DefaultSpecNeedsNoRounding: the least and the largest exponent field of the
default spec, and a spec of 64 bits. -/
theorem test_witness_flt_finite :
    (0x80000001 < 2 ^ (1 + 8 + 23) ∧ 0x80000001 / 2 ^ 23 % 2 ^ 8 = 0) ∧
    (0x7F7FFFFF < 2 ^ (1 + 8 + 23) ∧ 0x7F7FFFFF / 2 ^ 23 % 2 ^ 8 = 254 ∧ 254 ≠ 2 ^ 8 - 1) ∧
    (1 + 11 + 52 ≤ 64 ∧ 0xFFEFFFFFFFFFFFFF < 2 ^ (1 + 11 + 52) ∧ 0xFFEFFFFFFFFFFFFF / 2 ^ 52 % 2 ^ 11 ≠ 2 ^ 11 - 1) := by
  decide

/-- The same on whole states, with FLT_DEC's classes. -/
theorem test_witness_flt_states :
    [floatState 1 8 23 0x80000001, floatState 1 8 23 0x7F7FFFFF, floatState 1 11 52 0xFFEFFFFFFFFFFFFF,
        floatState 1 8 23 0xFF800000, floatState 1 8 23 0xFFFFFFFF, floatState 1 0 1 1].map
      (fun s => (after (exec .fltDec s)).map fun t => t.fltClass) =
    [some .finite, some .finite, some .finite, some .infinity, some .nan, some .nan] := by decide +kernel

/-- Round64IsNearestTiesToEven: a finite rounding and an Infinity. -/
theorem test_witness_round64 : f64Finite (round64 true 3 (-1075)) ∧ ¬ f64Finite (round64 false 1 1024) := by
  unfold f64Finite
  decide +kernel

/-- Round64IsNearestTiesToEven: two binary64 values equally near to 3 × 2^−1075. -/
theorem test_witness_round64_tie : f64Finite 1 ∧ round64 false 3 (-1075) = 2 ∧ f64Value 1 ≠ f64Value 2 ∧
    |exactValue false 3 (-1075) - f64Value 2| = |exactValue false 3 (-1075) - f64Value 1| := by
  have e1 : f64Value 1 = 1 * (2 : ℚ) ^ (-1074 : ℤ) := by
    simp [f64Value, f64ExpField, f64Fraction, exactValue]
  have e2 : f64Value 2 = 2 * (2 : ℚ) ^ (-1074 : ℤ) := by
    simp [f64Value, f64ExpField, f64Fraction, exactValue, show (2#64).msb = false from by decide]
  have e3 : exactValue false 3 (-1075) = 3 / 2 * (2 : ℚ) ^ (-1074 : ℤ) := by
    rw [exactValue, show (-1074 : ℤ) = -1075 + 1 by norm_num, zpow_add₀ (by norm_num)]
    generalize (2 : ℚ) ^ (-1075 : ℤ) = z
    norm_num
    ring
  have hp : (2 : ℚ) ^ (-1074 : ℤ) ≠ 0 := zpow_ne_zero _ (by norm_num)
  refine ⟨by unfold f64Finite; decide, by decide +kernel, ?_, ?_⟩
  · rw [e1, e2]; intro h; exact absurd (mul_right_cancel₀ hp h) (by norm_num)
  · rw [e1, e2, e3, ← sub_mul, ← sub_mul, abs_mul, abs_mul]; norm_num

/-- DegenerateLayouts: no exponent bits, no mantissa bits, and width 64 at the largest input. -/
theorem test_witness_degenerate :
    1 + (floatState 1 0 1 3).fltEb.toNat + (floatState 1 0 1 3).fltMb.toNat = 2 ∧ (floatState 1 0 1 3).fltIn.toNat < 2 ^ 2 ∧
    1 + (floatState 1 2 0 7).fltEb.toNat + (floatState 1 2 0 7).fltMb.toNat = 3 ∧ (floatState 1 2 0 7).fltIn.toNat < 2 ^ 3 ∧
    1 + (floatState 1 63 0 (-1)).fltEb.toNat + (floatState 1 63 0 (-1)).fltMb.toNat = 64 := by decide

/-- ErraccBitsAreSticky: bit 2 goes from 1 to 0 by a write of 1 to it, and by a reset. -/
theorem test_witness_erracc_falls : ∃ s t u v : State,
    (step s = .next t ∧ s.erracc.getLsbD 2 = true ∧ t.erracc.getLsbD 2 = false) ∧
    (step u = .next v ∧ u.erracc.getLsbD 2 = true ∧ v.erracc.getLsbD 2 = false) :=
  ⟨{ coming (writeAccess Config.defaultParams (.reg .erracc) 4) with erracc := 6 }, _,
    { State.reset with erracc := 6, pending := [.reset] }, _, ⟨rfl, by decide, by decide⟩, ⟨rfl, by decide, by decide⟩⟩

/-- OperandsPersistAndResultsStay: a command that ends, and a step that is neither a CMD write nor a reset. -/
theorem test_witness_persist : ∃ s t u v : State, exec .frmEnc s = .next t ∧ step u = .next v ∧
    (∀ w es, u.pending ≠ .access (cmdWrite u.params w) :: es) ∧ (∀ es, u.pending ≠ .reset :: es) := by
  refine ⟨State.reset, _, coming (writeAccess Config.defaultParams (.reg .din) 7), _, rfl, rfl, fun w es h => ?_, fun es h => ?_⟩
  · injection h with h1 _
    injection h1 with h2
    exact absurd (show (0x10 : Nat) = 0 from congrArg Access.addr h2) (by decide)
  · injection h with h1 _
    exact absurd h1 nofun

/-- ChecksumCommandsFrame, FrameCommandsFrame, FloatCommandFrame, CommandsThatNeverFail: each command ends in a next state. -/
theorem test_witness_frames : [Instr.nop, .cksInit, .cksByte, .cksBuf, .frmEnc, .frmDec, .fltDec].all
    (fun i => (after (exec i State.reset)).isSome) = true := by decide

/-- OnlyFrmEncWritesTheTransmitBuffer: TXBUF changes by FRM_ENC and by a reset. -/
theorem test_witness_txbuf_changes : ∃ s t u v : State,
    (step s = .next t ∧ t.txbuf ≠ s.txbuf) ∧ (step u = .next v ∧ v.txlen ≠ u.txlen) := by
  obtain ⟨t, h, ht⟩ := next_of_after (o := step (coming (cmdWrite Config.defaultParams 0x10)))
    (check := fun t => t.txbuf ≠ State.reset.txbuf) (by decide +kernel)
  exact ⟨_, t, { State.reset with txlen := 9, pending := [.reset] }, _, ⟨h, of_decide_eq_true ht⟩, ⟨rfl, by decide⟩⟩

/-- OnlyTheHostWritesTheReceiveBuffer: RXBUF[0] changes by a host write, and by a reset whatever its draw is. -/
theorem test_witness_rxbuf_changes : ∃ s t u v : State,
    (step s = .next t ∧ rxByte t 0 ≠ rxByte s 0) ∧ (step u = .next v ∧ rxByte v 0 ≠ rxByte u 0) := by
  refine ⟨{ loaded [0x01] with pending := [.access (writeAccess Config.defaultParams (.rxbuf 0) 2)] }, _,
    { loaded [Config.rxDraw 1 0 + 1] with pending := [.reset] }, _, ⟨rfl, by decide⟩, ⟨rfl, ?_⟩⟩
  show Config.rxDraw 1 0 ≠ Config.rxDraw 1 0 + 1
  intro h
  exact absurd (left_eq_add.mp h) (by decide)

/-- A state that is not the reset state: a mismatch recorded, a frame built, two bytes received, a float decoded. -/
def busy : State :=
  { State.reset with
    statusErr := 2, statusLastop := 0x11, erracc := 0x04, txlen := 9, txbuf := frameVector (encodeFrame 0x01 0x400F015B)
    rxbuf := [(0, 0x01), (255, 0x07)], payloadLen := 1, raw := 0xFF, fltClass := .finite, fltSig := 0xA00000, fltExp := -20
    fltF64 := 0x4024000000000000, pending := [.access (cmdWrite Config.defaultParams 0x20)] }

/-- EveryStepKeepsBlockInv, ParametersNeverChange: `busy` meets the invariant and has a next state. -/
theorem test_witness_block_inv : BlockInv busy ∧ ∃ t, step busy = .next t :=
  ⟨⟨by decide, by decide, .inr (.inl ⟨.inr rfl, rfl⟩), by decide, .inr ⟨rfl, 0x01, 0x400F015B, by decide +kernel⟩,
    ⟨by decide, by decide⟩, ⟨by decide +kernel, by decide, fun h => absurd rfl h, nofun⟩⟩,
    (next_of_after (check := fun _ => true) (by decide +kernel)).imp fun _ h => h.1⟩

end Sys2Proof.Tests
end

section
/-! The binary64 rounding of R13 and R509: what `f64Magnitude` picks is a nearest grid point with ties to even, no finite
pattern is nearer, and it reaches Infinity exactly at the rounding bound of the largest finite value. -/

namespace Sys2Proof.Proofs

open Sys2Proof Sys2Proof.Machine

/-! ### The rounding of a magnitude -/

/-- One unit in the last place of the binary64 patterns `k × 2^52 + m` (with `m` a full significand or `k` zero). -/
def ulp (k : Nat) : ℚ := 2 ^ ((k : Int) - 1074)

theorem ulp_pos (k : Nat) : 0 < ulp k := by unfold ulp; positivity

theorem two_pow_mul_ulp (n k : Nat) : (2 : ℚ) ^ n * ulp k = 2 ^ ((n : Int) + k - 1074) := by
  rw [ulp, ← zpow_natCast, ← zpow_add₀ (by norm_num), add_sub_assoc]

/-- `m` units of `ulp k` round the magnitude `x` to nearest with ties to even, in the binade of `x`. -/
structure RoundsTo (x : ℚ) (k m : Nat) : Prop where
  exp_le : k ≤ 2045
  sig_le : m ≤ 2 ^ 53
  sig_normal : k ≠ 0 → 2 ^ 52 ≤ m
  binade_le : k ≠ 0 → 2 ^ 52 * ulp k ≤ x
  lt_binade : x < 2 ^ 53 * ulp k
  near : |x - m * ulp k| ≤ ulp k / 2
  even_of_tie : |x - m * ulp k| = ulp k / 2 → m % 2 = 0

/-- A magnitude below half the least subnormal rounds to zero. -/
theorem roundsTo_zero {x : ℚ} (h0 : 0 ≤ x) (h : x < 2 ^ (-1075 : Int)) : RoundsTo x 0 0 := by
  have hu : ulp 0 / 2 = 2 ^ (-1075 : Int) := by
    rw [ulp, show ((0 : Nat) : Int) - 1074 = -1075 + 1 by norm_num, zpow_add_one₀ (by norm_num)]
    ring
  have hp := ulp_pos 0
  have hx : |x - (0 : Nat) * ulp 0| = x := by rw [Nat.cast_zero, zero_mul, sub_zero, abs_of_nonneg h0]
  exact
    { exp_le := by norm_num
      sig_le := by norm_num
      sig_normal := fun h => absurd rfl h
      binade_le := fun h => absurd rfl h
      lt_binade := by linarith
      near := by rw [hx, hu]; exact h.le
      even_of_tie := fun _ => rfl }

/-- `f64Magnitude` gives Infinity from 2^1024 on, and else a rounding to nearest with ties to even. -/
theorem f64Magnitude_rounds (sig : Nat) (q : Int) :
    ((2 : ℚ) ^ 1024 ≤ sig * 2 ^ q ∧ f64Magnitude sig q = f64InfBits) ∨
    ∃ k m : Nat, f64Magnitude sig q = k * 2 ^ 52 + m ∧ RoundsTo (sig * 2 ^ q) k m := by
  by_cases hsig : sig = 0
  · subst hsig
    exact .inr ⟨0, 0, rfl, roundsTo_zero (by simp) (by rw [Nat.cast_zero, zero_mul]; positivity)⟩
  rcases f64Magnitude_cases hsig q with hinf | ⟨hlow, hmag⟩ | ⟨k, m, hk, hm, hmag, hnorm, hlt, hnear, htie, -, -⟩
  · exact .inl hinf
  · exact .inr ⟨0, 0, hmag, roundsTo_zero (by positivity) hlow⟩
  · refine .inr ⟨k, m, hmag, hk, hm, fun h => (hnorm h).1, fun h => ?_, ?_, hnear, htie⟩
    · rw [two_pow_mul_ulp, show ((52 : Nat) : Int) + k - 1074 = k - 1022 by push_cast; ring]
      exact (hnorm h).2
    · rw [two_pow_mul_ulp, show ((53 : Nat) : Int) + k - 1074 = k - 1021 by push_cast; ring]
      exact hlt

/-! ### No finite value is nearer -/

/-- A multiple of the unit `c` other than the rounded one is at least half a unit away. -/
theorem half_unit_le_dist {x c : ℚ} (hc : 0 < c) {m z : Int} (h : |x - m * c| ≤ c / 2) (hz : z ≠ m) :
    c / 2 ≤ |x - z * c| := by
  have hone : (1 : ℚ) ≤ |(z : ℚ) - m| := by exact_mod_cast Int.one_le_abs (sub_ne_zero.2 hz)
  have hgap : c ≤ |z * c - m * c| := by
    rw [← sub_mul, abs_mul, abs_of_pos hc]
    exact le_mul_of_one_le_left hc.le hone
  have htri : |z * c - m * c| ≤ |x - z * c| + |x - m * c| := by
    rw [abs_sub_comm x]
    exact abs_sub_le _ x _
  linarith

/-- The rounded value is no farther than any multiple of its unit, and even where another multiple is as near. -/
theorem RoundsTo.nearest_multiple {x : ℚ} {k m : Nat} (h : RoundsTo x k m) (z : Int) :
    |x - m * ulp k| ≤ |x - z * ulp k| ∧ (|x - m * ulp k| = |x - z * ulp k| → z * ulp k ≠ m * ulp k → m % 2 = 0) := by
  by_cases hz : z = m
  · subst hz
    exact ⟨le_rfl, fun _ hne => absurd rfl hne⟩
  · have hfar := half_unit_le_dist (ulp_pos k) (m := m) h.near hz
    exact ⟨h.near.trans hfar, fun heq _ => h.even_of_tie (le_antisymm h.near (heq ▸ hfar))⟩

/-- A 53-bit significand at an exponent not below the least subnormal's is a multiple of `ulp k`, or `k` is not zero and it is
below the binade of `ulp k`. -/
theorem multiple_or_below {z j : Int} (hj : -1074 ≤ j) (hz : |z| < 2 ^ 53) (k : Nat) :
    (∃ z' : Int, z * (2 : ℚ) ^ j = z' * ulp k) ∨ (k ≠ 0 ∧ z * (2 : ℚ) ^ j < 2 ^ 52 * ulp k) := by
  rcases le_or_gt ((k : Int) - 1074) j with hle | hlt
  · left
    refine ⟨z * 2 ^ (j - (k - 1074)).toNat, ?_⟩
    push_cast
    rw [mul_assoc, ulp, ← zpow_natCast, ← zpow_add₀ (by norm_num), Int.toNat_of_nonneg (by omega), sub_add_cancel]
  · right
    refine ⟨by omega, ?_⟩
    have hz' : (z : ℚ) < 2 ^ 53 := by exact_mod_cast (abs_lt.1 hz).2
    calc z * (2 : ℚ) ^ j < 2 ^ 53 * 2 ^ j := mul_lt_mul_of_pos_right hz' (by positivity)
      _ = 2 ^ ((53 : Nat) + j) := by rw [zpow_add₀ (by norm_num), zpow_natCast]
      _ ≤ 2 ^ (((52 : Nat) : Int) + k - 1074) := zpow_le_zpow_right₀ (by norm_num) (by push_cast; omega)
      _ = 2 ^ 52 * ulp k := (two_pow_mul_ulp 52 k).symm

/-- No binary64 value is nearer to `x` than its rounding, and the rounding is even where another value is as near. A value below
the binade of `x` is farther than the binade's least value, which is a multiple of the unit. -/
theorem RoundsTo.nearest {x : ℚ} {k m : Nat} (h : RoundsTo x k m) {z j : Int} (hj : -1074 ≤ j) (hz : |z| < 2 ^ 53) :
    |x - m * ulp k| ≤ |x - z * 2 ^ j| ∧
    (|x - m * ulp k| = |x - z * 2 ^ j| → z * (2 : ℚ) ^ j ≠ m * ulp k → m % 2 = 0) := by
  rcases multiple_or_below hj hz k with ⟨z', hz'⟩ | ⟨hk, hbelow⟩
  · rw [hz']
    exact h.nearest_multiple z'
  · have hbin := h.binade_le hk
    have hbase : |x - m * ulp k| ≤ x - 2 ^ 52 * ulp k := by
      have hgrid := (h.nearest_multiple (2 ^ 52)).1
      rwa [Int.cast_pow, Int.cast_ofNat, abs_of_nonneg (sub_nonneg.2 hbin)] at hgrid
    have hfar : |x - m * ulp k| < |x - z * 2 ^ j| := hbase.trans_lt ((sub_lt_sub_left hbelow x).trans_le (le_abs_self _))
    exact ⟨hfar.le, fun heq => absurd heq hfar.ne⟩

/-! ### The overflow bound -/

/-- The pattern of a rounding is Infinity's exactly where it is the largest significand of the last binade plus one. -/
theorem RoundsTo.infBits_iff {x : ℚ} {k m : Nat} (h : RoundsTo x k m) :
    k * 2 ^ 52 + m = f64InfBits ↔ k = 2045 ∧ m = 2 ^ 53 := by
  have hk := h.exp_le
  have hm := h.sig_le
  rw [f64InfBits]
  omega

/-- The overflow bound is half a unit of the last binade below 2^1024. -/
theorem overflow_bound_eq : (2 : ℚ) ^ 1024 - 2 ^ 970 = 2 ^ 53 * ulp 2045 - ulp 2045 / 2 := by
  have hu : ulp 2045 = 2 ^ 971 := by rw [ulp, ← zpow_natCast]; rfl
  rw [hu, ← pow_add, pow_succ 2 970, mul_div_cancel_right₀ _ two_ne_zero]

/-- A rounding is Infinity exactly from half a unit below 2^1024 on: at the bound itself the odd largest significand loses the
tie. -/
theorem RoundsTo.overflow_iff {x : ℚ} {k m : Nat} (h : RoundsTo x k m) :
    k * 2 ^ 52 + m = f64InfBits ↔ (2 : ℚ) ^ 1024 - 2 ^ 970 ≤ x := by
  have hpos := ulp_pos 2045
  rw [h.infBits_iff, overflow_bound_eq]
  constructor
  · rintro ⟨rfl, rfl⟩
    have hlow := (abs_le.1 h.near).1
    push_cast at hlow
    linarith
  · intro hx
    have hk : k = 2045 := by
      by_contra hne
      have hle : (2 : ℚ) ^ 53 * ulp k ≤ 2 ^ 52 * ulp 2045 := by
        rw [two_pow_mul_ulp, two_pow_mul_ulp]
        exact zpow_le_zpow_right₀ (by norm_num) (by have := h.exp_le; push_cast; omega)
      have hlt := h.lt_binade
      linarith
    subst hk
    refine ⟨rfl, le_antisymm h.sig_le (Nat.le_of_not_lt fun hm => ?_)⟩
    have hup := (abs_le.1 h.near).2
    have hm1 : ((m : ℚ) + 1) * ulp 2045 ≤ 2 ^ 53 * ulp 2045 :=
      mul_le_mul_of_nonneg_right (by exact_mod_cast hm) hpos.le
    have heven : m % 2 = 0 := h.even_of_tie (le_antisymm h.near (le_trans (by linarith) (le_abs_self _)))
    have hm2 : ((m : ℚ) + 2) * ulp 2045 ≤ 2 ^ 53 * ulp 2045 :=
      mul_le_mul_of_nonneg_right (by exact_mod_cast (by omega : m + 2 ≤ 2 ^ 53)) hpos.le
    linarith

/-! ### The rounded pattern -/

/-- The sign bit of `round64` and the rest of the pattern. -/
theorem round64_parts (sign : Bool) (sig : Nat) (q : Int) :
    (round64 sign sig q).msb = sign ∧ (¬ f64Finite (round64 sign sig q) ↔ f64Magnitude sig q = f64InfBits) := by
  have hle := f64Magnitude_lt sig q
  rw [f64InfBits] at hle ⊢
  obtain ⟨hmsb, hexp, -⟩ := f64_parts sign (v := f64Magnitude sig q) (by omega)
  refine ⟨hmsb, ?_⟩
  rw [f64Finite, not_not, round64, hexp]
  omega

/-- The magnitude of the exact value. -/
theorem abs_exactValue (sign : Bool) (sig : Nat) (q : Int) : |exactValue sign sig q| = sig * 2 ^ q := by
  have h : (0 : ℚ) ≤ sig * 2 ^ q := by positivity
  cases sign <;> simp [exactValue, abs_of_nonneg h]

/-- The magnitude of `round64` overflows exactly from the rounding bound on (R509, log 9). -/
theorem f64Magnitude_eq_infBits_iff (sig : Nat) (q : Int) :
    f64Magnitude sig q = f64InfBits ↔ (2 : ℚ) ^ 1024 - 2 ^ 970 ≤ sig * 2 ^ q := by
  rcases f64Magnitude_rounds sig q with ⟨hx, hmag⟩ | ⟨k, m, hmag, hr⟩
  · exact iff_of_true hmag ((sub_le_self _ (by positivity)).trans hx)
  · rw [hmag]
    exact hr.overflow_iff

/-- Distances between values of one sign are those of their magnitudes. -/
theorem dist_exactValue (sign : Bool) (sig : Nat) (q : Int) (v : ℚ) :
    |exactValue sign sig q - v| = |sig * 2 ^ q - (if sign then -1 else 1) * v| := by
  cases sign
  · simp [exactValue]
  · rw [← abs_neg]
    congr 1
    simp [exactValue]
    ring

/-- The value read from a pattern, times a sign, is a 53-bit significand at an exponent not below the least subnormal's. -/
theorem signed_f64Value_grid (sign : Bool) (y : DWord) :
    ∃ z j : Int, -1074 ≤ j ∧ |z| < 2 ^ 53 ∧ (if sign then -1 else 1) * f64Value y = z * (2 : ℚ) ^ j := by
  obtain ⟨z, j, hj, hz, hy⟩ := f64Value_grid y
  cases sign
  · exact ⟨z, j, hj, hz, by simpa using hy⟩
  · exact ⟨-z, j, hj, by rwa [abs_neg], by simp [hy]⟩

/-- Where `round64` does not overflow, no binary64 value is nearer to the exact value, and its last bit is 0 where another is as
near. -/
theorem round64_nearest {sign : Bool} {sig : Nat} {q : Int} (hmag : f64Magnitude sig q ≠ f64InfBits) (y : DWord) :
    |exactValue sign sig q - f64Value (round64 sign sig q)| ≤ |exactValue sign sig q - f64Value y| ∧
    (|exactValue sign sig q - f64Value (round64 sign sig q)| = |exactValue sign sig q - f64Value y| →
      f64Value y ≠ f64Value (round64 sign sig q) → (round64 sign sig q).getLsbD 0 = false) := by
  obtain ⟨k, m, hkm, hr⟩ := (f64Magnitude_rounds sig q).resolve_left fun h => hmag h.2
  obtain ⟨z, j, hj, hz, hy⟩ := signed_f64Value_grid sign y
  have hd : (if sign then -1 else 1) * f64Value (round64 sign sig q) = m * ulp k := by
    rw [round64, hkm, f64Value_build sign hr.exp_le hr.sig_le hr.sig_normal, exactValue, ulp]
    cases sign <;> simp
  have hlast : m % 2 = 0 → (round64 sign sig q).getLsbD 0 = false := by
    intro hm
    have hs : f64SignBit sign % 2 = 0 := by cases sign <;> decide
    rw [round64, hkm, BitVec.getLsbD_ofNat, Nat.testBit_zero, Bool.and_eq_false_iff]
    exact .inr (decide_eq_false (by omega))
  rw [dist_exactValue, dist_exactValue, hd, hy]
  obtain ⟨hle, htie⟩ := hr.nearest hj hz
  refine ⟨hle, fun heq hne => hlast (htie heq fun hzm => hne ?_)⟩
  rw [← hy, ← hd] at hzm
  exact mul_left_cancel₀ (by cases sign <;> norm_num) hzm

/-- Settles O39: below the overflow bound `round64` is `RoundsTo`'s nearest multiple with ties to even, and from
it on Infinity. -/
theorem round64IsNearestTiesToEven : Obligations.Round64IsNearestTiesToEven := by
  intro sign sig q
  obtain ⟨hmsb, hfin⟩ := round64_parts sign sig q
  refine ⟨hmsb, fun hd y _ => round64_nearest (fun h => hfin.2 h hd) y, ?_, fun hd => ?_⟩
  · rw [hfin, f64Magnitude_eq_infBits_iff, abs_exactValue]
  · rw [round64, hfin.1 hd]
    cases sign <;> decide

end Sys2Proof.Proofs
end

section
/-! The window and the state of the block (spec/10_state.md): where each place lies, the words the registers read as, and
which events can change the ERRACC bits, the two buffers and the parameters. -/

namespace Sys2Proof.Proofs

open Sys2Proof Sys2Proof.Machine

/-! ### The words of registers and buffers -/

theorem zext32_toNat {n : Nat} (v : BitVec n) (h : n ≤ 32 := by norm_num) : (zext32 v).toNat = v.toNat := by
  rw [zext32, BitVec.toNat_setWidth, Nat.mod_eq_of_lt (v.isLt.trans_le (Nat.pow_le_pow_right two_pos h))]

/-- A field shifted above a smaller word adds up with it. -/
theorem zext32_shift_or_toNat {n k : Nat} (v : BitVec n) {lo : Word} (hlo : lo.toNat < 2 ^ k)
    (h : n + k ≤ 32 := by norm_num) :
    (zext32 v <<< k ||| lo).toNat = lo.toNat + 2 ^ k * v.toNat := by
  have hfit : v.toNat <<< k < 2 ^ 32 := by
    calc v.toNat <<< k = v.toNat * 2 ^ k := Nat.shiftLeft_eq _ _
      _ < 2 ^ n * 2 ^ k := Nat.mul_lt_mul_of_pos_right v.isLt (Nat.two_pow_pos k)
      _ = 2 ^ (n + k) := (pow_add 2 n k).symm
      _ ≤ 2 ^ 32 := Nat.pow_le_pow_right two_pos h
  rw [BitVec.toNat_or, BitVec.toNat_shiftLeft, zext32_toNat v (by omega), Nat.mod_eq_of_lt hfit,
    ← Nat.shiftLeft_add_eq_or_of_lt hlo, Nat.shiftLeft_eq, Nat.add_comm, Nat.mul_comm]

/-- The `_LO` and `_HI` words of a 64-bit quantity make it up (R207). -/
theorem loWord_add_hiWord (d : DWord) : (loWord d).toNat + 2 ^ 32 * (hiWord d).toNat = d.toNat := by
  rw [loWord_toNat, hiWord_toNat, Nat.mod_add_div]

theorem readReg_status_toNat (s : State) :
    (readReg s .status).toNat = s.statusErr.toNat + 2 ^ 8 * s.statusLastop.toNat := by
  have herr := zext32_toNat s.statusErr
  rw [readReg, statusWord, zext32_shift_or_toNat _ (by omega), herr]

theorem readReg_fltSpec_toNat (s : State) :
    (readReg s .fltSpec).toNat = s.fltSb.toNat + 2 ^ 8 * s.fltEb.toNat + 2 ^ 16 * s.fltMb.toNat := by
  have hsb := zext32_toNat s.fltSb
  have hlow := zext32_shift_or_toNat s.fltEb (k := 8) (lo := zext32 s.fltSb) (by omega)
  rw [readReg, BitVec.or_assoc, zext32_shift_or_toNat _ (by omega), hlow, hsb]

theorem readReg_fltRes_toNat (s : State) :
    (readReg s .fltRes).toNat = (classCode s.fltClass).toNat + 2 ^ 8 * s.fltSign.toNat := by
  have hcls := zext32_toNat (classCode s.fltClass)
  rw [readReg, zext32_shift_or_toNat _ (by omega), hcls, BitVec.toNat_ofBool]

theorem readReg_cfg_toNat {s : State} (h : s.params.wf = true) : (readReg s .cfg).toNat = s.params.bufBytes := by
  simp only [Params.wf, Bool.and_eq_true, decide_eq_true_eq] at h
  rw [readReg, BitVec.toNat_ofNat, Nat.mod_eq_of_lt (by omega)]

/-- Settles O8: each word is the sum of its shifted fields. -/
theorem registersReadTheirFields : Obligations.RegistersReadTheirFields := by
  intro s
  refine ⟨rfl, readReg_status_toNat s, zext32_toNat _, zext32_toNat _, zext32_toNat _, zext32_toNat _, rfl,
    zext32_toNat _, zext32_toNat _, zext32_toNat _, loWord_add_hiWord _, zext32_toNat _, readReg_fltSpec_toNat s,
    loWord_add_hiWord _, ?_, loWord_add_hiWord _, loWord_add_hiWord _, loWord_add_hiWord _, readReg_cfg_toNat,
    fun _ => zext32_toNat _, fun _ => zext32_toNat _, fun _ => rfl⟩
  rw [readReg_fltRes_toNat]
  cases s.fltClass <;> rfl

/-- Settles O14: the reset state is one concrete state, so its words are computed. -/
theorem resetStateReadsTheResetValues : Obligations.ResetStateReadsTheResetValues :=
  ⟨by decide, by decide⟩

/-! ### The window -/

/-- What is found at an aligned offset inside the window is a place of it. -/
theorem locate_wf {p : Params} {off : Nat} (h4 : off % 4 = 0) (h : off < 0x400 + 4 * p.bufBytes) :
    (locate off).wf p = true := by
  by_cases hreg : off < 0x060
  · obtain ⟨r, hr, -⟩ := locate_low h4 hreg
    rw [hr, Location.wf]
  by_cases htx : 0x200 ≤ off ∧ off < 0x224
  · obtain ⟨i, hi, -⟩ := locate_mid h4 htx
    rw [hi, Location.wf]
  by_cases hrx : 0x400 ≤ off
  · obtain ⟨i, rfl⟩ : ∃ i, off = 0x400 + 4 * i := ⟨(off - 0x400) / 4, by omega⟩
    rw [locate_rxbuf, Location.wf, decide_eq_true_eq]
    omega
  · rw [locate_reserved (by omega)]
    simp only [Location.wf, Bool.and_eq_true, Bool.or_eq_true, beq_iff_eq, decide_eq_true_eq]
    omega

/-- Settles O5: `locate` and `locationOffset` are inverse to each other inside the window. -/
theorem windowMapIsOneToOne : Obligations.WindowMapIsOneToOne := by
  refine fun p => ⟨fun l hl => ?_, fun off h4 h => ⟨locate_wf h4 h, locationOffset_locate h4⟩⟩
  obtain ⟨hfound, hinside, haligned⟩ := locationOffset_inside hl
  exact ⟨hfound, haligned, hinside⟩

/-- Settles O55: the registers are a table, the buffers and the reserved ranges formulas. -/
theorem windowOffsetsAreTheRegisterMap : Obligations.WindowOffsetsAreTheRegisterMap :=
  ⟨by decide, fun i => ⟨rfl, locate_txbuf i⟩, fun i => ⟨rfl, locate_rxbuf i⟩,
    fun _ _ h => ⟨rfl, locate_reserved (by omega)⟩⟩

/-! ### What a host write to a register leaves unchanged -/

section
variable (w : Word) (s : State) (r : Reg)

@[simp] theorem writeReg_params : (writeReg w s r).params = s.params := by cases r <;> rfl
@[simp] theorem writeReg_txbuf : (writeReg w s r).txbuf = s.txbuf := by cases r <;> rfl
@[simp] theorem writeReg_txlen : (writeReg w s r).txlen = s.txlen := by cases r <;> rfl
@[simp] theorem writeReg_rxbuf : (writeReg w s r).rxbuf = s.rxbuf := by cases r <;> rfl
@[simp] theorem writeReg_draws : (writeReg w s r).draws = s.draws := by cases r <;> rfl

@[simp] theorem rxByte_writeReg (k : Nat) : rxByte (writeReg w s r) k = rxByte s k :=
  rxByte_congr (writeReg_rxbuf w s r) (writeReg_draws w s r) k

theorem writeReg_erracc_of_ne {r : Reg} (hr : r ≠ .erracc) : (writeReg w s r).erracc = s.erracc := by
  cases r
  case erracc => exact absurd rfl hr
  all_goals rfl

end

/-- What ERRACC reads as after a host write to it (R105). -/
theorem zext32_erraccClear (acc : BitVec 7) (w : Word) :
    zext32 (erraccClear acc w) = zext32 acc &&& ~~~(w &&& 0x0000007E) := by
  apply BitVec.eq_of_getLsbD_eq
  intro k hk
  simp only [zext32, BitVec.getLsbD_setWidth, erraccClear_getLsbD, BitVec.getLsbD_and, BitVec.getLsbD_not]
  by_cases h7 : k < 7
  · have hmask : (0x0000007E : Word).getLsbD k = decide (1 ≤ k) := by interval_cases k <;> decide
    rw [hmask]
    simp [hk]
  · simp [BitVec.getLsbD_of_ge acc k (by omega)]

/-- Settles O10: the step is `erraccClear`, zero-extended to the word. -/
theorem erraccWriteOneToClear : Obligations.ErraccWriteOneToClear := by
  intro s w es hp
  exact ⟨writeReg w (setPending es s) .erracc, step_write (l := .reg .erracc) rfl hp, zext32_erraccClear s.erracc w, rfl⟩

/-- Settles O12: the step is one `setRxByte`. -/
theorem rxbufWriteStoresOneByte : Obligations.RxbufWriteStoresOneByte := by
  intro s i w es hi hp
  have hstep : step s = .next (setRxByte i (w.setWidth 8) (setPending es s)) :=
    step_write (l := .rxbuf i) (decide_eq_true hi) hp
  refine ⟨_, hstep, ?_, fun j hj => ?_, rfl⟩
  · rw [rxByte_setRxByte, if_pos rfl, BitVec.setWidth_eq_extractLsb' (by norm_num)]
  · rw [rxByte_setRxByte, if_neg hj, rxByte_setPending]

/-! ### What a command keeps -/

/-- The opcode map assigns each command one opcode (R303). -/
theorem eq_opcode_of_decodeOp {op : Byte} {i : Instr} (h : decodeOp op = some i) : op = opcode i := by
  simp only [decodeOp] at h
  split_ifs at h <;> cases h <;> assumption

/-- A word whose RSV bits are 0 is its OP, zero-extended (R300). -/
theorem eq_zeroExtend_opField {w : Word} (h : rsvField w = 0) : w = (opField w).zeroExtend 32 := by
  have hhigh := congrArg BitVec.toNat h
  have hw := w.isLt
  apply BitVec.eq_of_toNat_eq
  simp only [rsvField, opField, BitVec.extractLsb'_toNat, Nat.shiftRight_eq_div_pow, BitVec.ofNat_eq_ofNat,
    BitVec.toNat_ofNat, BitVec.truncate_eq_setWidth, BitVec.toNat_setWidth] at hhigh ⊢
  omega

/-- The decoder reads a command from its own command word only (R303, R309). -/
theorem eq_encode_of_decode {w : Word} {i : Instr} (h : decode w = .ok i) : w = encode i := by
  simp only [decode] at h
  split_ifs at h with hrsv
  split at h
  · rename_i j hop
    cases h
    rw [encode, ← eq_opcode_of_decodeOp hop]
    exact eq_zeroExtend_opField (not_not.1 hrsv)
  · cases h

/-- No command clears an ERRACC bit (R605). -/
theorem exec_keeps_erracc_bit {i : Instr} {s t : State} {k : Nat} (h : exec i s = .next t)
    (hk : s.erracc.getLsbD k = true) : t.erracc.getLsbD k = true := by
  cases i
  case nop => cases h; exact hk
  case cksInit => cases h; exact hk
  case cksByte => cases h; exact hk
  case cksBuf => rcases exec_cksBuf_cases h with ⟨-, rfl⟩ | ⟨-, rfl⟩ <;> simp [erraccSet_getLsbD, hk]
  case frmEnc => cases h; exact hk
  case frmDec =>
    rcases exec_frmDec_cases h with ⟨-, rfl⟩ | ⟨-, -, rfl⟩ | ⟨-, -, -, rfl⟩ | ⟨-, -, -, rfl⟩ <;>
      simp [frmDecChecked, erraccSet_getLsbD, hk]
  case fltDec =>
    rcases exec_fltDec_cases h with ⟨-, rfl⟩ | ⟨-, -, rfl⟩ | ⟨-, -, rfl⟩ <;> simp [erraccSet_getLsbD, hk]

/-- Only FRM_ENC writes TXBUF and TXLEN (R110, R122). -/
theorem exec_keeps_transmit {i : Instr} {s t : State} (h : exec i s = .next t) (hi : i ≠ .frmEnc) :
    t.txbuf = s.txbuf ∧ t.txlen = s.txlen := by
  cases i
  case nop => cases h; simp
  case cksInit => cases h; simp
  case cksByte => cases h; simp
  case cksBuf => rcases exec_cksBuf_cases h with ⟨-, rfl⟩ | ⟨-, rfl⟩ <;> simp
  case frmEnc => exact absurd rfl hi
  case frmDec =>
    rcases exec_frmDec_cases h with ⟨-, rfl⟩ | ⟨-, -, rfl⟩ | ⟨-, -, -, rfl⟩ | ⟨-, -, -, rfl⟩ <;> simp [frmDecChecked]
  case fltDec => rcases exec_fltDec_cases h with ⟨-, rfl⟩ | ⟨-, -, rfl⟩ | ⟨-, -, rfl⟩ <;> simp

/-- No command changes what RXBUF reads as (R706). -/
theorem exec_keeps_rxByte {i : Instr} {s t : State} (h : exec i s = .next t) (k : Nat) : rxByte t k = rxByte s k := by
  obtain ⟨-, -, -, -, -, hrx, -, -, -, -, hdraws, -, -⟩ := exec_keeps_operands h
  exact rxByte_congr hrx hdraws k

/-! ### What a step can change -/

/-- Settles O45: a command only sets bits, and of the registers only ERRACC's own write clears them. -/
theorem erraccBitsAreSticky : Obligations.ErraccBitsAreSticky := by
  intro s t k hstep hs ht
  have hkept : t.erracc.getLsbD k ≠ true := by simp [ht]
  cases step_cases hstep with
  | idle _ h | read _ _ _ h | writeRx _ _ _ _ _ h | ignored _ _ _ h => exact absurd (by simp [h, hs]) hkept
  | reset es hp _ => exact .inr ⟨es, hp⟩
  | writeReg r w es _ hp h =>
    by_cases hr : r = .erracc
    · subst hr h
      refine .inl ⟨w, es, hp, ?_⟩
      by_contra hw
      exact hkept ((erraccClear_getLsbD s.erracc w k).trans (by simp [hs, hw]))
    · exact absurd (by simp [h, writeReg_erracc_of_ne, hr, hs]) hkept
  | command w i es _ _ h => exact absurd (exec_keeps_erracc_bit h hs) hkept
  | illegal w e es _ _ h => exact absurd (by simp [h, execIllegal, erraccSet_getLsbD, hs]) hkept

/-- Settles O50: the only command word FRM_ENC is decoded from is its own. -/
theorem onlyFrmEncWritesTheTransmitBuffer : Obligations.OnlyFrmEncWritesTheTransmitBuffer := by
  intro s t hstep hne
  have hkept : ¬ (t.txbuf = s.txbuf ∧ t.txlen = s.txlen) := by tauto
  cases step_cases hstep with
  | idle _ h | read _ _ _ h | writeReg _ _ _ _ _ h | writeRx _ _ _ _ _ h | ignored _ _ _ h =>
    exact absurd (by simp [h]) hkept
  | reset es hp _ => exact .inr ⟨es, hp⟩
  | command w i es hp hd h =>
    by_cases hi : i = .frmEnc
    · subst hi
      obtain rfl : w = 0x00000010 := eq_encode_of_decode hd
      exact .inl ⟨es, hp⟩
    · exact absurd (exec_keeps_transmit h hi) hkept
  | illegal _ _ _ _ _ h => exact absurd (by simp [h, execIllegal]) hkept

/-- Settles O51: of all steps but a reset only `setRxByte` writes RXBUF, at its own index. -/
theorem onlyTheHostWritesTheReceiveBuffer : Obligations.OnlyTheHostWritesTheReceiveBuffer := by
  intro s t k hstep hne
  cases step_cases hstep with
  | idle _ h | read _ _ _ h | writeReg _ _ _ _ _ h | ignored _ _ _ h => exact absurd (by simp [h]) hne
  | reset es hp _ => exact .inr ⟨es, hp⟩
  | writeRx i w es _ hp h =>
    by_cases hk : k = i
    · subst hk
      exact .inl ⟨w, es, hp⟩
    · exact absurd (by simp [h, rxByte_setRxByte, hk]) hne
  | command w i es _ _ h => exact absurd (exec_keeps_rxByte h k) hne
  | illegal _ _ _ _ _ h => exact absurd (by simp [h, execIllegal]) hne

/-- No step changes the parameters (R127, log 1). -/
theorem step_keeps_params {s t : State} (h : step s = .next t) : t.params = s.params := by
  cases step_cases h with
  | idle _ ht | reset _ _ ht | read _ _ _ ht | writeReg _ _ _ _ _ ht | writeRx _ _ _ _ _ ht | ignored _ _ _ ht =>
    simp [ht]
  | command _ _ _ _ _ ht =>
    obtain ⟨hp, -⟩ := exec_keeps_operands ht
    exact hp
  | illegal _ _ _ _ _ ht => simp [ht, execIllegal]

/-- Settles O52: CFG reads a parameter. -/
theorem parametersNeverChange : Obligations.ParametersNeverChange := by
  intro s t h
  have hp := step_keeps_params h
  exact ⟨hp, by rw [readReg, readReg, hp]⟩

end Sys2Proof.Proofs
end

section
/-! The host's accesses (spec/20_memory.md): which steps are refused, what a read returns, what a write to each place stores
and leaves unchanged, and the command a CMD write runs. -/

namespace Sys2Proof.Proofs

open Sys2Proof Sys2Proof.Machine

/-- A write to a register other than CMD is one `writeReg` (R202). -/
theorem hostWrite_reg {r : Reg} (w : Word) (s : State) (hr : r ≠ .cmd) : hostWrite (.reg r) w s = .next (writeReg w s r) :=
  if_neg hr

/-! ### Refused accesses (R205) -/

/-- No admitted write is refused: every command ends in a state (R310). -/
theorem hostWrite_stops_nowhere (l : Location) (w : Word) (s : State) (r : Refusal) : hostWrite l w s ≠ .refused r := by
  cases l with
  | reg q =>
    by_cases hq : q = .cmd
    · subst hq
      simp only [hostWrite, if_true, runCommand]
      cases decode w with
      | ok i => exact exec_stops_nowhere i s r
      | error _ => exact nofun
    · rw [hostWrite_reg w s hq]
      exact nofun
  | txbuf _ | rxbuf _ | reserved _ => exact nofun

/-- An access is refused exactly when it has no offset in the window. -/
theorem hostAccess_eq_refused {a : Access} {s : State} {r : Refusal} :
    hostAccess a s = .refused r ↔ accessOffset s.params a = .error r := by
  rw [hostAccess]
  cases accessOffset s.params a with
  | error _ => simp
  | ok off =>
    cases a.dir with
    | read => simp
    | write w => simp [hostWrite_stops_nowhere]

/-- Settles O6: a step can only be refused by the access it takes, and that only for its offset. -/
theorem refusedStepsAreTheBadAccesses : Obligations.RefusedStepsAreTheBadAccesses := by
  intro s
  cases hp : s.pending with
  | nil => simp [step, hp]
  | cons e es =>
    rw [step_cons hp]
    cases e with
    | reset => simp [runEvent]
    | access a =>
      simp only [runEvent, hostAccess_eq_refused, setPending_params, accessOffset_eq_error, Params.windowSize]
      simp

/-! ### What a host write to a register stores (R202) -/

/-- Storing the low `n` bits of a word in a field of `n` bits: the word under the field's mask, the rest as it was. -/
theorem zext32_setWidth_eq_masked {n : Nat} (w : Word) (v : BitVec n) :
    zext32 (w.setWidth n) = (w &&& zext32 (BitVec.allOnes n)) ||| (zext32 v &&& ~~~ zext32 (BitVec.allOnes n)) := by
  ext k hk
  by_cases hkn : k < n
  · simp [zext32, hk, hkn]
  · simp [zext32, hk, hkn, BitVec.getLsbD_of_ge v k (not_lt.1 hkn)]

/-- A register whose 32 bits are all writable takes the word whole. -/
theorem eq_fully_masked (w v : Word) : w = (w &&& BitVec.allOnes 32) ||| (v &&& ~~~ BitVec.allOnes 32) := by
  rw [BitVec.and_allOnes, BitVec.not_allOnes, BitVec.and_zero, BitVec.or_zero]

/-- FLT_SPEC reads as one field of 24 bits (R115). -/
theorem readReg_fltSpec (s : State) : readReg s .fltSpec = zext32 (s.fltMb ++ s.fltEb ++ s.fltSb) := by
  apply BitVec.eq_of_toNat_eq
  rw [readReg_fltSpec_toNat, zext32_toNat, BitVec.toNat_append, BitVec.toNat_append,
    ← Nat.shiftLeft_add_eq_or_of_lt s.fltEb.isLt, ← Nat.shiftLeft_add_eq_or_of_lt s.fltSb.isLt]
  omega

/-- A write to FLT_SPEC stores w[23:0] over its three fields (R115). -/
theorem readReg_writeReg_fltSpec (w : Word) (s : State) :
    readReg (writeReg w s .fltSpec) .fltSpec = zext32 (w.setWidth 24) := by
  have hparts : w.extractLsb' 16 8 ++ w.extractLsb' 8 8 ++ w.extractLsb' 0 8 = w.setWidth 24 := by
    rw [BitVec.extractLsb'_append_extractLsb'_eq_extractLsb' (show 16 = 8 + 8 from rfl),
      BitVec.extractLsb'_append_extractLsb'_eq_extractLsb' (show 8 = 0 + 8 from rfl),
      BitVec.setWidth_eq_extractLsb' (by norm_num)]
  rw [readReg_fltSpec, ← hparts]
  rfl

/-- A host write to a register with no writable bit and no W1C bit changes nothing (R202). -/
theorem writeReg_of_readOnly {r : Reg} (w : Word) (s : State) (hr : writableBits r = 0) (he : r ≠ .erracc) :
    writeReg w s r = s := by
  cases r
  case erracc => exact absurd rfl he
  case crc | din | frmCmd | frmRegid | rxlen | fltSpec | fltInLo | fltInHi => exact absurd hr (by decide)
  all_goals rfl

/-- A host write to a register stores the word in its writable bits (R106 to R116). -/
theorem readReg_writeReg_same {r : Reg} (w : Word) (s : State) (he : r ≠ .erracc) :
    readReg (writeReg w s r) r = (w &&& writableBits r) ||| (readReg s r &&& ~~~ writableBits r) := by
  by_cases hro : writableBits r = 0
  · simp only [writeReg_of_readOnly w s hro he, hro, BitVec.ofNat_eq_ofNat, BitVec.and_zero, BitVec.not_zero,
      BitVec.and_allOnes, BitVec.zero_or]
  cases r
  case crc => exact zext32_setWidth_eq_masked w s.crc
  case rxlen => exact zext32_setWidth_eq_masked w s.rxlen
  case din => exact zext32_setWidth_eq_masked w s.din
  case frmCmd => exact zext32_setWidth_eq_masked w s.frmCmd
  case fltSpec =>
    rw [readReg_writeReg_fltSpec, readReg_fltSpec]
    exact zext32_setWidth_eq_masked w _
  case frmRegid => exact eq_fully_masked w s.frmRegid
  case fltInLo => exact (loWord_joinWords _ w).trans (eq_fully_masked w (loWord s.fltIn))
  case fltInHi => exact (hiWord_joinWords w _).trans (eq_fully_masked w (hiWord s.fltIn))
  all_goals exact absurd rfl hro

/-- A host write to a register leaves what every other register reads as. -/
theorem readReg_writeReg_of_ne {r r' : Reg} (w : Word) (s : State) (h : r' ≠ r) :
    readReg (writeReg w s r) r' = readReg s r' := by
  cases r
  case crc | din | frmCmd | frmRegid | rxlen | fltSpec | erracc | fltInLo | fltInHi =>
    cases r' <;> simp [readReg, writeReg] at h ⊢
  all_goals rfl

@[simp] theorem writeReg_pending (w : Word) (s : State) (r : Reg) : (writeReg w s r).pending = s.pending := by
  cases r <;> rfl

@[simp] theorem writeReg_returned (w : Word) (s : State) (r : Reg) : (writeReg w s r).returned = s.returned := by
  cases r <;> rfl

@[simp] theorem readReg_setPending (es : List Event) (s : State) (r : Reg) : readReg (setPending es s) r = readReg s r := by
  cases r <;> rfl

/-- The step of a coming write to a register other than CMD. -/
theorem step_writeReg {s : State} {r : Reg} {w : Word} {es : List Event} (hr : r ≠ .cmd)
    (hp : s.pending = .access (writeAccess s.params (.reg r) w) :: es) :
    step s = .next (writeReg w (setPending es s) r) := by
  rw [step_write (l := .reg r) rfl hp, hostWrite_reg w _ hr]

/-- Settles O9: the step is one `writeReg`. -/
theorem registerWritesStoreTheWritableBits : Obligations.RegisterWritesStoreTheWritableBits := by
  refine ⟨rfl, rfl, fun s r w es hcmd he hp => ?_⟩
  refine ⟨_, step_writeReg hcmd hp, ?_, fun r' hne => ?_, fun i => ?_, fun i => ?_, ?_⟩
  · rw [readReg_writeReg_same w _ he, readReg_setPending]
  · rw [readReg_writeReg_of_ne w _ hne, readReg_setPending]
  · simp [readLocation]
  · simp [readLocation]
  · simp

/-- Settles O11: an ignored place is a register with no writable bit, a TXBUF byte or a reserved offset. -/
theorem ignoredWritesHaveNoEffect : Obligations.IgnoredWritesHaveNoEffect := by
  intro s l w es hl hignored hp
  cases l with
  | reg r =>
    obtain ⟨hro, hcmd, he⟩ := hignored
    rw [step_writeReg hcmd hp, writeReg_of_readOnly w _ hro he, setPending]
  | rxbuf i => exact hignored.elim
  | txbuf _ | reserved _ => exact step_write hl hp

/-! ### The same write again (R210) -/

/-- A second write of the same word to a register finds nothing to change. -/
theorem writeReg_writeReg (w : Word) (s : State) (r : Reg) : writeReg w (writeReg w s r) r = writeReg w s r := by
  cases r
  case erracc => simp [writeReg, erraccClear, BitVec.and_assoc]
  case fltInLo => simp [writeReg]
  case fltInHi => simp [writeReg]
  all_goals rfl

/-- Settles O13: a register write, an RXBUF write and an ignored write are each idempotent. -/
theorem writesAreIdempotent : Obligations.WritesAreIdempotent := by
  intro l w s t hl h
  cases l with
  | reg r =>
    have hr : r ≠ .cmd := by simpa using hl
    rw [hostWrite_reg w s hr] at h
    cases h
    rw [hostWrite_reg w _ hr, writeReg_writeReg]
  | rxbuf i =>
    cases h
    simp only [hostWrite, setRxByte, put_put]
  | txbuf _ | reserved _ => rfl

/-! ### Commands and reads (R201, R203) -/

/-- Settles O3: a CMD write is `runCommand`, and the word decodes. -/
theorem stepRunsTheDecodedCommand : Obligations.StepRunsTheDecodedCommand := by
  intro s w i es hp hd
  rw [step_cmd hp, runCommand, hd, setPending]

/-- Settles O7: a read only appends to the returned words. -/
theorem readReturnsTheWordAndChangesNothing : Obligations.ReadReturnsTheWordAndChangesNothing := by
  intro s l es hl hp
  rw [step_read hl hp, pushReturned, setPending]

end Sys2Proof.Proofs
end

section
/-! The commands (spec/30_encoding.md): the decoder against the encoder, the illegal command words, the accesses of
`crc_bytes`, and what each command leaves unchanged. -/

namespace Sys2Proof.Proofs

open Sys2Proof Sys2Proof.Machine

/-! ### The command word (R300 to R309) -/

theorem encoding_statement : ∀ i : Instr, Laws.Encoding.Statement i
  | .nop => Laws.Encoding.nop
  | .cksInit => Laws.Encoding.cksInit
  | .cksByte => Laws.Encoding.cksByte
  | .cksBuf => Laws.Encoding.cksBuf
  | .frmEnc => Laws.Encoding.frmEnc
  | .frmDec => Laws.Encoding.frmDec
  | .fltDec => Laws.Encoding.fltDec

theorem opField_encode (i : Instr) : opField (encode i) = opcode i := by
  obtain ⟨-, hop, -, -⟩ := encoding_statement i
  exact hop

theorem rsvField_encode (i : Instr) : rsvField (encode i) = 0 := by
  obtain ⟨-, -, hrsv, -⟩ := encoding_statement i
  exact hrsv

theorem decode_encode (i : Instr) : decode (encode i) = .ok i := by
  obtain ⟨-, -, -, hdecode⟩ := encoding_statement i
  exact hdecode

theorem decode_eq_ok_iff {w : Word} {i : Instr} : decode w = .ok i ↔ w = encode i := by
  refine ⟨eq_encode_of_decode, ?_⟩
  rintro rfl
  exact decode_encode i

/-- Decoding is total: what is no command word is an error (R309). -/
theorem decode_eq_error_of_forall_ne {w : Word} (h : ∀ i, w ≠ encode i) : ∃ e, decode w = .error e := by
  cases hd : decode w with
  | ok i => exact absurd (decode_eq_ok_iff.1 hd) (h i)
  | error e => exact ⟨e, rfl⟩

/-- Settles O1: `decode` and `encode` are inverse to each other, and `decode` has no third outcome. -/
theorem decodeReadsExactlyTheCommandWords : Obligations.DecodeReadsExactlyTheCommandWords :=
  ⟨rfl, fun _ => ⟨fun _ => decode_eq_ok_iff, decode_eq_error_of_forall_ne⟩⟩

/-- Settles O2: each literal is the command word of its command. -/
theorem opcodeMapWords : Obligations.OpcodeMapWords :=
  ⟨decode_encode .nop, decode_encode .cksInit, decode_encode .cksByte, decode_encode .cksBuf, decode_encode .frmEnc,
    decode_encode .frmDec, decode_encode .fltDec, rfl, rfl, rfl, rfl, rfl, rfl, rfl⟩

/-! ### Illegal command words (R302, R305) -/

/-- The assigned values of OP (R303). -/
theorem opcode_mem (i : Instr) : opcode i ∈ [(0x00 : Byte), 0x01, 0x02, 0x03, 0x10, 0x11, 0x20] := by
  cases i <;> decide

/-- A word with a set RSV bit or an unassigned OP is the command word of no command. -/
theorem ne_encode_of_illegal {w : Word}
    (h : rsvField w ≠ 0 ∨ opField w ∉ [(0x00 : Byte), 0x01, 0x02, 0x03, 0x10, 0x11, 0x20]) (i : Instr) :
    w ≠ encode i := by
  rintro rfl
  rcases h with hrsv | hop
  · exact hrsv (rsvField_encode i)
  · rw [opField_encode] at hop
    exact hop (opcode_mem i)

theorem runCommand_of_decode_error {w : Word} {e : DecodeError} (s : State) (h : decode w = .error e) :
    runCommand w s = .next (execIllegal w s) := by
  rw [runCommand, h]

/-- Settles O4: an illegal word does not decode, and `execIllegal` is one `raiseError`. -/
theorem illegalWordRecordsIllegalCommand : Obligations.IllegalWordRecordsIllegalCommand := by
  intro s w es hp hillegal
  obtain ⟨e, he⟩ := decode_eq_error_of_forall_ne (ne_encode_of_illegal hillegal)
  rw [step_cmd hp, runCommand_of_decode_error _ he]
  rfl

/-! ### The accesses of `crc_bytes` (R307, R308) -/

/-- A run takes its first step and goes on from the state that gives. -/
theorem run_succ {s t : State} (k : Nat) (h : step s = .next t) :
    Host.Core.run core (k + 1) s = Host.Core.run core k t := by
  have h' : core.step s = .next t := h
  simp only [Host.Core.run, h']

/-- The step of a coming `cmd` line is its command (R203, R307). -/
theorem step_cmdLine {s : State} {i : Instr} {es : List Event} (hp : s.pending = lineEvent s.params (.cmd i) :: es) :
    step s = exec i (setPending es s) :=
  stepRunsTheDecodedCommand s (encode i) i es hp (decode_encode i)

/-- The step of a coming `wr DIN, b` line puts the byte in DIN (R107). -/
theorem step_wrDin {s : State} {b : Byte} {es : List Event}
    (hp : s.pending = lineEvent s.params (.wr (.reg .din) (zext32 b)) :: es) :
    step s = .next { s with din := b, pending := es } := by
  have hb : (zext32 b).setWidth 8 = b := by simp [zext32]
  rw [step_writeReg (by decide) hp, writeReg, hb, setPending]

/-- The two accesses that feed one byte make one checksum step (R412). -/
theorem run_feedByte {s : State} {b : Byte} {bs : List Byte} {es : List Event} (k : Nat)
    (hp : s.pending = listing s.params (feedBytes (b :: bs)) ++ es) :
    Host.Core.run core (k + 2) s = Host.Core.run core k
      (finish 0x02 (setCrc (crcStep s.crc b)
        { s with din := b, pending := listing s.params (feedBytes bs) ++ es })) := by
  rw [run_succ _ (step_wrDin hp), run_succ _ ((step_cmdLine rfl).trans (exec_cksByte _))]
  rfl

/-- The accesses that feed bytes run the checksum of the bytes on from CRC (R308). -/
theorem run_feedBytes {bs : List Byte} {s : State} {es : List Event}
    (hp : s.pending = listing s.params (feedBytes bs) ++ es) (hok : s.statusErr = 0) :
    ∃ t, Host.Core.run core (2 * bs.length) s = .next t ∧
      t.crc = bs.foldl crcStep s.crc ∧ t.statusErr = 0 ∧ t.pending = es := by
  induction bs generalizing s with
  | nil => exact ⟨s, rfl, rfl, hok, hp⟩
  | cons b bs ih =>
    rw [List.length_cons, Nat.mul_add_one, run_feedByte _ hp]
    exact ih rfl rfl

/-- Settles O25: CKS_INIT loads the initial register, and the bytes run on from there. -/
theorem crcBytesListingComputesTheChecksum : Obligations.CrcBytesListingComputesTheChecksum := by
  intro bs s es hp
  rw [Nat.add_comm, run_succ _ ((step_cmdLine hp).trans (exec_cksInit _))]
  exact run_feedBytes rfl rfl

/-! ### What each command leaves unchanged (R304, R605) -/

/-- Settles O47: the answered state of each command, and its RXBUF. -/
theorem checksumCommandsFrame : Obligations.ChecksumCommandsFrame := by
  intro i s t hi h
  have hrx := exec_keeps_rxByte h
  rcases hi with rfl | rfl | rfl | rfl
  · cases h; exact ⟨rfl, fun _ => rfl, fun _ => rfl, hrx⟩
  · cases h; exact ⟨rfl, nofun, fun _ => rfl, hrx⟩
  · cases h; exact ⟨rfl, nofun, fun _ => rfl, hrx⟩
  · refine ⟨?_, nofun, fun hne => absurd rfl hne, hrx⟩
    rcases exec_cksBuf_cases h with ⟨-, rfl⟩ | ⟨-, rfl⟩ <;> rfl

/-- Settles O48: FRM_ENC answers one state, FRM_DEC one of four. -/
theorem frameCommandsFrame : Obligations.FrameCommandsFrame := by
  refine ⟨fun s t h => ⟨?_, exec_keeps_rxByte h⟩, fun s t h => ⟨?_, exec_keeps_rxByte h⟩⟩
  · rw [exec_frmEnc] at h
    cases h
    rfl
  · rcases exec_frmDec_cases h with ⟨-, rfl⟩ | ⟨-, -, rfl⟩ | ⟨-, -, -, rfl⟩ | ⟨-, -, -, rfl⟩ <;> rfl

/-- Settles O49: FLT_DEC answers one of three states. -/
theorem floatCommandFrame : Obligations.FloatCommandFrame := by
  refine fun s t h => ⟨?_, exec_keeps_rxByte h⟩
  rcases exec_fltDec_cases h with ⟨-, rfl⟩ | ⟨-, -, rfl⟩ | ⟨-, -, rfl⟩ <;> rfl

end Sys2Proof.Proofs
end

section
/-! The checksum unit (spec/40_checksum.md): the forms of a checksum step, the residue property and the detection it gives
FRM_DEC, the bytes of an integer stream, and the four commands of the unit. -/

namespace Sys2Proof.Proofs

open Sys2Proof Sys2Proof.Machine

/-! ### The residue property (R402, R403) -/

/-- A register is its high byte, put in the high half, and its low byte. -/
theorem half_eq_bytes (r : Half) :
    r = (r.extractLsb' 0 8).setWidth 16 ^^^ ((r.extractLsb' 8 8).setWidth 16 <<< 8) := by
  apply BitVec.eq_of_getLsbD_eq
  intro k hk
  by_cases h : k < 8
  · simp [h, hk]
  · simp [h, hk, show k - 8 < 8 by omega, show 8 + (k - 8) = k by omega]

/-- A left shift by 8 drops the high byte. -/
theorem half_shiftLeft_eight (r : Half) : r <<< 8 = (r.extractLsb' 0 8).setWidth 16 <<< 8 := by
  apply BitVec.eq_of_getLsbD_eq
  intro k hk
  by_cases h : k < 8
  · simp [h]
  · simp [h, hk, show k - 8 < 8 by omega, show k - 8 < 16 by omega]

/-- A step of the zero byte is linear in the register (R405). -/
theorem crcStep_zero_xor (r r' : Half) : crcStep (r ^^^ r') 0 = crcStep r 0 ^^^ crcStep r' 0 :=
  crcStep_xor r r' 0 0

/-- The table form: the low byte is only shifted, and the high byte and the input byte together pick the entry (R402). -/
theorem crcStep_eq_table (r : Half) (b : Byte) :
    crcStep r b = (r <<< 8) ^^^ crcTable (r.extractLsb' 8 8 ^^^ b) := by
  have hfed : r ^^^ (b.setWidth 16 <<< 8) =
      (r.extractLsb' 0 8).setWidth 16 ^^^ ((r.extractLsb' 8 8 ^^^ b).setWidth 16 <<< 8) := by
    rw [BitVec.setWidth_xor, BitVec.shiftLeft_xor_distrib, ← BitVec.xor_assoc, ← half_eq_bytes]
  rw [crcStep_shift, hfed, crcStep_zero_xor, crcStep_lowByte, ← half_shiftLeft_eight, crcTable]

/-- A step with the register's own high byte only shifts the register. -/
theorem crcStep_highByte (r : Half) : crcStep r (r.extractLsb' 8 8) = r <<< 8 := by
  have hfirst : crcTable 0#8 = 0#16 := crcStep_zero
  rw [crcStep_eq_table, BitVec.xor_self, hfirst, BitVec.xor_zero]

/-- The high byte of a register shifted left by 8 is its low byte. -/
theorem highByte_shiftLeft (r : Half) : (r <<< 8).extractLsb' 8 8 = r.extractLsb' 0 8 := by
  apply BitVec.eq_of_getLsbD_eq
  intro k hk
  rw [BitVec.getLsbD_extractLsb', BitVec.getLsbD_shiftLeft, BitVec.getLsbD_extractLsb']
  simp [hk, show 8 + k < 16 by omega]

/-- The residue property (R403). -/
theorem crcStep_residue (r : Half) : crcStep (crcStep r (r.extractLsb' 8 8)) (r.extractLsb' 0 8) = 0 := by
  rw [crcStep_highByte, ← highByte_shiftLeft, crcStep_highByte, ← BitVec.shiftLeft_add]
  exact BitVec.shiftLeft_eq_zero le_rfl

theorem checksum_append (u v : List Byte) : checksum (u ++ v) = v.foldl crcStep (checksum u) :=
  List.foldl_append

/-- A sequence followed by its checksum has checksum 0 (R403). -/
theorem checksum_append_checksum (u : List Byte) : checksum (u ++ beBytes 2 (checksum u).toNat) = 0 := by
  rw [checksum_append, beBytes_two]
  exact crcStep_residue (checksum u)

/-- Settles O23: the checksum is a fold, and a register's own bytes clear it. -/
theorem checksumConcatenationAndResidue : Obligations.ChecksumConcatenationAndResidue :=
  ⟨rfl, checksum_append, crcStep_residue, checksum_append_checksum⟩

/-! ### The forms of a checksum step (R400, R402, R405) -/

/-- One input bit, with the rule's own numbers (R400). -/
theorem crcBit_eq_ite (r : Half) (i : Bool) :
    crcBit r i = if r.getLsbD 15 ≠ i then (r <<< 1) ^^^ 0x1021 else r <<< 1 := by
  rw [crcBit]
  cases r.getLsbD 15 <;> cases i <;> rfl

/-- One input bit of R400 on an unbounded register, with no mask. -/
def wideBit (x : Nat) (i : Bool) : Nat := if x.testBit 15 ≠ i then (x <<< 1) ^^^ 0x1021 else x <<< 1

theorem ofNat_shiftLeft_one (x : Nat) : BitVec.ofNat 16 x <<< 1 = BitVec.ofNat 16 (x <<< 1) := by
  apply BitVec.eq_of_toNat_eq
  simp only [BitVec.toNat_shiftLeft, BitVec.toNat_ofNat, Nat.shiftLeft_eq]
  omega

/-- Masking commutes with an input bit: neither the shift nor the polynomial moves a bit above 15 down (R400). -/
theorem crcBit_ofNat (x : Nat) (i : Bool) : crcBit (BitVec.ofNat 16 x) i = BitVec.ofNat 16 (wideBit x i) := by
  have htop : (BitVec.ofNat 16 x).getLsbD 15 = x.testBit 15 := by rw [BitVec.getLsbD_ofNat]; rfl
  rw [crcBit_eq_ite, htop, wideBit, ofNat_shiftLeft_one]
  split
  · exact BitVec.ofNat_xor.symm
  · rfl

/-- A step is the unbounded loop, masked once. -/
theorem crcStep_eq_ofNat (r : Half) (b : Byte) :
    crcStep r b = BitVec.ofNat 16 ([7, 6, 5, 4, 3, 2, 1, 0].foldl (fun x i => wideBit x (b.getLsbD i)) r.toNat) := by
  have hhom := List.foldl_hom (BitVec.ofNat 16) (l := [7, 6, 5, 4, 3, 2, 1, 0]) (init := r.toNat)
    (g₂ := fun r i => crcBit r (b.getLsbD i)) fun x i => crcBit_ofNat x (b.getLsbD i)
  rw [BitVec.ofNat_toNat, BitVec.setWidth_eq] at hhom
  exact hhom

/-- Settles O21: bit by bit the two loops agree up to the mask. -/
theorem crcStepMasksOncePerByte : Obligations.CrcStepMasksOncePerByte := by
  intro r b
  constructor
  · simp only [crcStep, crcBit_eq_ite]
  · rw [crcStep_eq_ofNat, BitVec.toNat_ofNat]
    rfl

/-- The byte-wise form: the byte goes in first, then eight zero bits (R402). -/
theorem crcStep_eq_byteWise (r : Half) (b : Byte) :
    crcStep r b = (List.range 8).foldl (fun x _ => crcBit x false) (r ^^^ (b.setWidth 16 <<< 8)) := by
  have hzero : ∀ i, (0 : Byte).getLsbD i = false := fun i => BitVec.getLsbD_zero
  rw [crcStep_shift]
  simp only [crcStep, hzero]
  rfl

/-- Settles O22: the byte-wise form, the table form, and the listed entries by evaluation. -/
theorem crcStepByteWiseAndTableForms : Obligations.CrcStepByteWiseAndTableForms := by
  refine ⟨fun r b => ⟨?_, crcStep_eq_table r b⟩, fun k => rfl, by decide, by decide⟩
  rw [crcStep_eq_byteWise]
  simp only [crcBit, Bool.xor_false, Config.crcPoly]

/-- Settles O24: an injective map of a finite set to itself is bijective. -/
theorem crcStepIsBijective : Obligations.CrcStepIsBijective :=
  fun b => (crcStep_injective b).bijective_of_finite

/-! ### A corrupted response (R405, R455) -/

/-- Two bytes are the big-endian bytes of their value. -/
theorem beBytes_beValue_pair (a b : Byte) : beBytes 2 (beValue [a, b]) = [a, b] := by
  rw [beValue_pair, beBytes_two, BitVec.extractLsb'_append_eq_left, BitVec.extractLsb'_append_eq_right]

/-- A response that ends with the checksum of its body has checksum 0, whole (R403). -/
theorem checksum_eq_zero_of_trailer {r : List Byte} (hlen : 2 ≤ r.length)
    (h : (checksum (responseBody r)).toNat = responseTrailer r) : checksum r = 0 := by
  obtain ⟨a, b, htail⟩ : ∃ a b, r.drop (r.length - 2) = [a, b] :=
    List.length_eq_two.1 (by rw [List.length_drop]; omega)
  have hsplit : r = responseBody r ++ beBytes 2 (checksum (responseBody r)).toNat := by
    rw [h, responseTrailer, htail, beBytes_beValue_pair, ← htail, responseBody, List.take_append_drop]
  rw [hsplit]
  exact checksum_append_checksum _

/-- Every command answers a state (R310). -/
theorem exec_answers (i : Instr) (s : State) : ∃ t, exec i s = .next t := by
  cases h : exec i s with
  | next t => exact ⟨t, rfl⟩
  | fault r => cases r
  | refused r => exact absurd h (exec_stops_nowhere i s r)

/-- What FRM_DEC accepts fits the buffer, has the minimal length, and has checksum 0, whole. -/
theorem checksum_rxAll_of_frmDec_ok {s t : State} (h : exec .frmDec s = .next t) (hok : t.statusErr = 0) :
    rxLength s ≤ s.params.bufBytes ∧ 8 ≤ rxLength s ∧ checksum (rxAll s) = 0 := by
  rcases exec_frmDec_cases h with ⟨-, rfl⟩ | ⟨-, -, rfl⟩ | ⟨-, -, -, rfl⟩ | ⟨hfits, hmin, hsum, -⟩
  · exact absurd hok raiseError_not_ok
  · exact absurd hok raiseError_not_ok
  · exact absurd hok raiseError_not_ok
  · exact ⟨hfits, hmin, checksum_eq_zero_of_trailer (by rw [rxBytes_length]; omega) hsum⟩

/-- A changed byte of the response changes its whole checksum (R405). -/
theorem checksum_rxAll_setRxByte_ne {s : State} {i : Nat} {b : Byte} (hi : i < rxLength s) (hb : b ≠ rxByte s i) :
    checksum (rxAll (setRxByte i b s)) ≠ checksum (rxAll s) := by
  have hset : rxAll (setRxByte i b s) = (rxAll s).set i b := rxBytes_setRxByte s (rxLength s) i b
  rw [hset]
  exact foldl_crcStep_set_ne (by rwa [rxBytes_length]) (by simpa [rxBytes] using hb) _

/-- Settles O34: the lengths stay, and both the response and the changed response cannot have checksum 0. -/
theorem singleByteCorruptionIsDetected : Obligations.SingleByteCorruptionIsDetected := by
  intro s t i b h hok hi hb
  obtain ⟨hfits, hmin, hsum⟩ := checksum_rxAll_of_frmDec_ok h hok
  have hchanged := checksum_rxAll_setRxByte_ne hi hb
  obtain ⟨u, hu⟩ := exec_answers .frmDec (setRxByte i b s)
  refine ⟨u, hu, ?_⟩
  rcases exec_frmDec_cases hu with ⟨hlong, -⟩ | ⟨-, hshort, -⟩ | ⟨-, -, -, rfl⟩ | ⟨-, -, -, rfl⟩
  · exact absurd hlong (Nat.not_lt.2 hfits)
  · exact absurd hshort (Nat.not_lt.2 hmin)
  · rfl
  · obtain ⟨-, -, hsum'⟩ := checksum_rxAll_of_frmDec_ok hu rfl
    exact absurd (hsum'.trans hsum.symm) hchanged

/-! ### The bytes of an integer stream (R404) -/

/-- Settles O26: two hex digits are one byte; an odd count is one nibble short of the next even one. -/
theorem integerStreamBytes : Obligations.IntegerStreamBytes := by
  intro v d hv
  have hpow (k : Nat) : 16 ^ (2 * k) = 256 ^ k := pow_mul 16 2 k
  rcases Nat.even_or_odd' d with ⟨k, rfl | rfl⟩
  · rw [hpow] at hv
    have hbytes : intBytes v (2 * k) = beBytes k v := by simp [intBytes]
    rw [hbytes, beBytes_length, beValue_beBytes hv]
    exact ⟨by omega, by simp⟩
  · have hv' : v * 16 < 256 ^ (k + 1) := by
      rw [← hpow, show 2 * (k + 1) = 2 * k + 1 + 1 from rfl, pow_succ]
      omega
    have hbytes : intBytes v (2 * k + 1) = beBytes (k + 1) (v * 16) := by
      simp [intBytes, Nat.add_mod, show (2 * k + 1 + 1) / 2 = k + 1 by omega]
    rw [hbytes, beBytes_length, beValue_beBytes hv']
    exact ⟨by omega, by simp [Nat.add_mod, Nat.mul_comm]⟩

/-! ### The commands of the checksum unit (R410 to R413) -/

/-- A word with a set RSV bit is no command, whatever its OP (R302). -/
theorem decode_of_rsvField_ne_zero {w : Word} (h : rsvField w ≠ 0) : decode w = .error .reservedBits :=
  if_pos h

/-- Settles O17: NOP only finishes. -/
theorem nopClearsStatusOnly : Obligations.NopClearsStatusOnly :=
  ⟨exec_nop, decode_encode .nop, fun _ _ hrsv => decode_of_rsvField_ne_zero hrsv⟩

/-- Settles O18: CKS_INIT writes CRC and finishes. -/
theorem cksInitLoadsTheInitialRegister : Obligations.CksInitLoadsTheInitialRegister :=
  ⟨decode_encode .cksInit, exec_cksInit⟩

/-- Put a byte in DIN and run CKS_BYTE, unless the machine has stopped. -/
def feedDin (o : Host.Outcome State Fault Refusal) (b : Byte) : Host.Outcome State Fault Refusal :=
  match o with
  | .next u => exec .cksByte { u with din := b }
  | stop => stop

/-- Feeding bytes one by one runs the checksum of the bytes on from CRC (R412). -/
theorem foldl_feedDin (bs : List Byte) (u : State) :
    ∃ t, bs.foldl feedDin (.next u) = .next t ∧ t.crc = bs.foldl crcStep u.crc := by
  induction bs generalizing u with
  | nil => exact ⟨u, rfl, rfl⟩
  | cons b bs ih => exact ih (finish 0x02 (setCrc (crcStep u.crc b) { u with din := b }))

/-- Settles O19: one step per byte from the initial register is the checksum. -/
theorem cksByteFeedsOneByte : Obligations.CksByteFeedsOneByte :=
  ⟨decode_encode .cksByte, exec_cksByte, crcStep_zero, fun bs s => foldl_feedDin bs (finish 0x01 (setCrc 0xFFFF s))⟩

/-- Settles O20: CKS_BUF's two cases, one on each side of BUF_BYTES. -/
theorem cksBufChecksTheBuffer : Obligations.CksBufChecksTheBuffer := by
  refine ⟨decode_encode .cksBuf, fun s => ?_⟩
  obtain ⟨t, ht⟩ := exec_answers .cksBuf s
  rw [ht]
  rcases exec_cksBuf_cases ht with ⟨hlong, rfl⟩ | ⟨hfits, rfl⟩
  · exact ⟨fun _ => rfl, fun hle => absurd hlong (Nat.not_lt.2 hle)⟩
  · exact ⟨fun hlt => absurd hlt (Nat.not_lt.2 hfits), fun _ => rfl⟩

end Sys2Proof.Proofs
end

section
/-! The frame unit (spec/41_frame.md): the request frame of FRM_ENC, the decode function on well-formed responses, FRM_DEC
case by case with what its result depends on, and the value of the payload. -/

namespace Sys2Proof.Proofs

open Sys2Proof Sys2Proof.Machine

/-! ### The request frame (R450, R454) -/

/-- The nine bytes of a request frame, one by one (R450). -/
theorem encodeFrame_bytes (c : Byte) (id : Word) :
    encodeFrame c id =
      [0x2B, c, 0x04, id.extractLsb' 24 8, id.extractLsb' 16 8, id.extractLsb' 8 8, id.extractLsb' 0 8,
        (checksum (requestHeader c id)).extractLsb' 8 8, (checksum (requestHeader c id)).extractLsb' 0 8] := by
  rw [encodeFrame_eq, beBytes_two, requestHeader_bytes]
  rfl

/-- Settles O27: TXBUF holds the frame as it is, and the frame is those nine bytes. -/
theorem frmEncBuildsTheRequestFrame : Obligations.FrmEncBuildsTheRequestFrame := by
  refine ⟨decode_encode .frmEnc, fun s => ?_⟩
  intro c id idBytes k
  have hk : checksum (requestHeader c id) = k := congrArg checksum (requestHeader_bytes c id)
  refine ⟨_, exec_frmEnc s, ?_, ?_⟩
  · refine (frameVector_toList (encodeFrame_length c id)).trans ?_
    rw [encodeFrame_bytes, hk]
    rfl
  · rw [← hk]
    rfl

/-! ### The decode function (R453, R458) -/

/-- A response built from its header and payload (R452). -/
def buildResponse (h p : List Byte) : List Byte := h ++ p ++ beBytes 2 (checksum (h ++ p)).toNat

section
variable {h : List Byte} (p : List Byte)

theorem responseBody_buildResponse : responseBody (buildResponse h p) = h ++ p :=
  responseBody_append (h ++ p) (beBytes_length 2 _)

theorem responseTrailer_buildResponse : responseTrailer (buildResponse h p) = (checksum (h ++ p)).toNat :=
  (responseTrailer_append (h ++ p) (beBytes_length 2 _)).trans (beValue_beBytes (checksum (h ++ p)).isLt)

theorem checksum_eq_trailer_buildResponse :
    (checksum (responseBody (buildResponse h p))).toNat = responseTrailer (buildResponse h p) := by
  rw [responseBody_buildResponse, responseTrailer_buildResponse]

theorem buildResponse_length (hh : h.length = 6) : (buildResponse h p).length = 8 + p.length := by
  simp only [buildResponse, List.length_append, beBytes_length, hh]
  omega

theorem responseValue_buildResponse (hh : h.length = 6) : responseValue (buildResponse h p) = beValue p :=
  responseValue_append p hh (beBytes_length 2 _)

end

/-- A response below the minimal length throws (R453). -/
theorem decodeResponse_of_short {r : List Byte} (hmin : r.length < 8) : decodeResponse r = .error .frameTooShort :=
  if_pos hmin

/-- A response of the minimal length whose checksum differs throws (R453). -/
theorem decodeResponse_of_mismatch {r : List Byte} (hmin : 8 ≤ r.length)
    (hsum : (checksum (responseBody r)).toNat ≠ responseTrailer r) : decodeResponse r = .error .checksumMismatch :=
  (if_neg hmin.not_gt).trans (if_pos hsum)

/-- A response of the minimal length whose checksum agrees returns the value of its payload (R453). -/
theorem decodeResponse_of_match {r : List Byte} (hmin : 8 ≤ r.length)
    (hsum : (checksum (responseBody r)).toNat = responseTrailer r) : decodeResponse r = .ok (responseValue r) :=
  (if_neg hmin.not_gt).trans (if_neg (not_not.2 hsum))

/-- The round trip of R458. -/
theorem decodeResponse_buildResponse {h : List Byte} (p : List Byte) (hh : h.length = 6) :
    decodeResponse (buildResponse h p) = .ok (beValue p) := by
  have hmin : 8 ≤ (buildResponse h p).length := by rw [buildResponse_length p hh]; omega
  rw [decodeResponse_of_match hmin (checksum_eq_trailer_buildResponse p), responseValue_buildResponse p hh]

/-- A request without its start marker is a response with no payload (R458). -/
theorem encodeFrame_drop_marker (c : Byte) (id : Word) : (encodeFrame c id).drop 1 = buildResponse (requestHeader c id) [] := by
  rw [encodeFrame_eq, buildResponse, List.append_nil, List.drop_one, List.tail_cons]

/-- Settles O32: the round trip, and the request as a response with no payload. -/
theorem responseRoundTrip : Obligations.ResponseRoundTrip := by
  refine ⟨fun h p hh => decodeResponse_buildResponse p hh, fun c id => ?_⟩
  rw [encodeFrame_drop_marker, decodeResponse_buildResponse [] (requestHeader_length c id), beValue_nil]

/-! ### FRM_DEC case by case (R455, R604) -/

/-- FRM_DEC's result when every check holds: the payload unpacked, STATUS OK (R455). -/
def frmDecUnpacked (s : State) : State :=
  finish 0x11 (setPayload (BitVec.ofNat 16 (rxLength s - 8)) (BitVec.ofNat 64 (responseValue (rxAll s))) (frmDecChecked s))

section
variable {s : State}

theorem exec_frmDec_of_long (hlong : s.params.bufBytes < rxLength s) :
    exec .frmDec s = .next (raiseError 0x11 .lengthOutOfRange s) :=
  if_pos hlong

theorem exec_frmDec_of_short (hfits : rxLength s ≤ s.params.bufBytes) (hshort : rxLength s < 8) :
    exec .frmDec s = .next (raiseError 0x11 .frameTooShort s) :=
  (if_neg hfits.not_gt).trans (if_pos hshort)

theorem exec_frmDec_of_mismatch (hfits : rxLength s ≤ s.params.bufBytes) (hmin : 8 ≤ rxLength s)
    (hsum : (checksum (responseBody (rxAll s))).toNat ≠ responseTrailer (rxAll s)) :
    exec .frmDec s = .next (raiseError 0x11 .checksumMismatch (frmDecChecked s)) :=
  (if_neg hfits.not_gt).trans ((if_neg hmin.not_gt).trans (if_pos hsum))

theorem exec_frmDec_of_match (hfits : rxLength s ≤ s.params.bufBytes) (hmin : 8 ≤ rxLength s)
    (hsum : (checksum (responseBody (rxAll s))).toNat = responseTrailer (rxAll s)) :
    exec .frmDec s = .next (frmDecUnpacked s) :=
  (if_neg hfits.not_gt).trans ((if_neg hmin.not_gt).trans (if_neg (not_not.2 hsum)))

/-- The trailing two bytes of the response as RX_CRC takes them (R455). -/
theorem responseTrailer_rxAll (hmin : 8 ≤ rxLength s) :
    responseTrailer (rxAll s) = (rxByte s (rxLength s - 2) ++ rxByte s (rxLength s - 1) : Half).toNat :=
  responseTrailer_rxBytes s (by omega)

/-- The two checksums agree as numbers exactly when the registers that take them agree. -/
theorem checksum_eq_trailer_iff (hmin : 8 ≤ rxLength s) :
    (checksum (responseBody (rxAll s))).toNat = responseTrailer (rxAll s) ↔
      checksum (rxBytes s (rxLength s - 2)) = rxByte s (rxLength s - 2) ++ rxByte s (rxLength s - 1) := by
  rw [responseTrailer_rxAll hmin, responseBody_rxBytes, BitVec.toNat_inj]

/-- CRC and RX_CRC after the length checks, from the bytes of RXBUF (R455). -/
theorem frmDecChecked_eq (hmin : 8 ≤ rxLength s) :
    frmDecChecked s = setCrc (checksum (rxBytes s (rxLength s - 2)))
      (setRxCrc (rxByte s (rxLength s - 2) ++ rxByte s (rxLength s - 1)) s) := by
  rw [frmDecChecked, responseTrailer_rxAll hmin, responseBody_rxBytes, BitVec.ofNat_toNat, BitVec.setWidth_eq]

/-- FRM_DEC ends OK in one way only (R456). -/
theorem exec_frmDec_ok {t : State} (h : exec .frmDec s = .next t) (hok : t.statusErr = 0) :
    rxLength s ≤ s.params.bufBytes ∧ 8 ≤ rxLength s ∧
      (checksum (responseBody (rxAll s))).toNat = responseTrailer (rxAll s) ∧ t = frmDecUnpacked s := by
  rcases exec_frmDec_cases h with ⟨-, rfl⟩ | ⟨-, -, rfl⟩ | ⟨-, -, -, rfl⟩ | hmatch
  · exact absurd hok raiseError_not_ok
  · exact absurd hok raiseError_not_ok
  · exact absurd hok raiseError_not_ok
  · exact hmatch

end

/-- Settles O28: the four cases, with CRC, RX_CRC and RAW read off the bytes of RXBUF. -/
theorem frmDecValidatesAndUnpacks : Obligations.FrmDecValidatesAndUnpacks := by
  refine ⟨decode_encode .frmDec, fun s => ⟨?_, ?_, ?_, ?_⟩⟩
  · exact exec_frmDec_of_long
  · exact exec_frmDec_of_short
  · intro hfits hmin hne
    rw [exec_frmDec_of_mismatch hfits hmin (mt (checksum_eq_trailer_iff hmin).1 hne), frmDecChecked_eq hmin]
    rfl
  · intro hfits hmin heq
    rw [exec_frmDec_of_match hfits hmin ((checksum_eq_trailer_iff hmin).2 heq), frmDecUnpacked, frmDecChecked_eq hmin,
      responseValue_rxBytes]
    rfl

/-- Settles O30: FRM_DEC and the decode function make the same checks in the same order. -/
theorem frmDecFollowsTheDecodeFunction : Obligations.FrmDecFollowsTheDecodeFunction := by
  intro s hfits
  have hbytes : (List.range s.rxlen.toNat).map (rxByte s) = rxAll s := rfl
  rw [hbytes]
  have hlen : (rxAll s).length = rxLength s := rxBytes_length s (rxLength s)
  obtain ⟨t, ht⟩ := exec_answers .frmDec s
  refine ⟨t, ht, ?_⟩
  rcases exec_frmDec_cases ht with ⟨hlong, -⟩ | ⟨-, hshort, rfl⟩ | ⟨-, hmin, hsum, rfl⟩ | ⟨-, hmin, hsum, rfl⟩
  · exact absurd hlong (Nat.not_lt.2 hfits)
  · rw [decodeResponse_of_short (by rwa [hlen])]
    exact ⟨rfl, rfl⟩
  · rw [decodeResponse_of_mismatch (by rwa [hlen]) hsum]
    exact ⟨rfl, rfl⟩
  · rw [decodeResponse_of_match (by rwa [hlen]) hsum]
    exact ⟨rfl, rfl⟩

/-! ### What FRM_DEC's result depends on (R456) -/

/-- FRM_DEC ends OK exactly when the length is in range and the checksum agrees. -/
theorem frmDec_ok_iff {s t : State} (h : exec .frmDec s = .next t) :
    t.statusErr = 0 ↔ 8 ≤ rxLength s ∧ rxLength s ≤ s.params.bufBytes ∧
      checksum (rxBytes s (rxLength s - 2)) = rxByte s (rxLength s - 2) ++ rxByte s (rxLength s - 1) := by
  constructor
  · intro hok
    obtain ⟨hfits, hmin, hsum, -⟩ := exec_frmDec_ok h hok
    exact ⟨hmin, hfits, (checksum_eq_trailer_iff hmin).1 hsum⟩
  · rintro ⟨hmin, hfits, hsum⟩
    cases h.symm.trans (exec_frmDec_of_match hfits hmin ((checksum_eq_trailer_iff hmin).2 hsum))
    rfl

/-- The state with the fields of another request. -/
def withRequest (c : Byte) (id : Word) (f : Vector Byte 9) (n : BitVec 4) (s : State) : State :=
  { s with frmCmd := c, frmRegid := id, txbuf := f, txlen := n }

/-- The checks of FRM_DEC read no field of the request, and its writes touch none (R456). -/
theorem exec_frmDec_withRequest {s t : State} (c : Byte) (id : Word) (f : Vector Byte 9) (n : BitVec 4)
    (h : exec .frmDec s = .next t) : exec .frmDec (withRequest c id f n s) = .next (withRequest c id f n t) := by
  rcases exec_frmDec_cases h with ⟨hlong, rfl⟩ | ⟨hfits, hshort, rfl⟩ | ⟨hfits, hmin, hsum, rfl⟩ | ⟨hfits, hmin, hsum, rfl⟩
  · exact exec_frmDec_of_long (s := withRequest c id f n s) hlong
  · exact exec_frmDec_of_short (s := withRequest c id f n s) hfits hshort
  · exact exec_frmDec_of_mismatch (s := withRequest c id f n s) hfits hmin hsum
  · exact exec_frmDec_of_match (s := withRequest c id f n s) hfits hmin hsum

/-- Settles O31: the OK case, and every case with another request. -/
theorem frmDecMakesNoOtherCheck : Obligations.FrmDecMakesNoOtherCheck :=
  ⟨fun _ _ h => frmDec_ok_iff h, fun _ _ c id f n h => exec_frmDec_withRequest c id f n h⟩

/-! ### The value of the payload (R457, R458) -/

theorem beValue_zero_cons (p : List Byte) : beValue (0 :: p) = beValue p := by
  simp [beValue_cons]

theorem loWord_ofNat_toNat (v : Nat) : (loWord (BitVec.ofNat 64 v)).toNat = v % 2 ^ 32 := by
  rw [loWord_toNat, BitVec.toNat_ofNat]
  omega

theorem hiWord_ofNat_toNat (v : Nat) : (hiWord (BitVec.ofNat 64 v)).toNat = v / 2 ^ 32 % 2 ^ 32 := by
  rw [hiWord_toNat, BitVec.toNat_ofNat]
  omega

/-- Settles O29: the laws of a big-endian value, and the two words of RAW. -/
theorem rawValueArithmetic : Obligations.RawValueArithmetic := by
  refine ⟨beValue_nil, beValue_cons, fun p => ⟨beValue_bound p, beValue_zero_cons p⟩, fun s t h hok => ?_⟩
  obtain ⟨-, -, -, rfl⟩ := exec_frmDec_ok h hok
  intro v
  have hv : responseValue (rxAll s) = v := responseValue_rxBytes s (rxLength s)
  rw [← hv]
  exact ⟨loWord_ofNat_toNat (responseValue (rxAll s)), hiWord_ofNat_toNat (responseValue (rxAll s))⟩

/-- Settles O33: RXBUF holds the response that header and payload build, so FRM_DEC unpacks its parts. -/
theorem frmDecAcceptsWellFormedResponses : Obligations.FrmDecAcceptsWellFormedResponses := by
  intro s h p hh hlen hfits hbytes
  have hbuilt : (buildResponse h p).length = rxLength s := (buildResponse_length p hh).trans hlen.symm
  have hrx : rxAll s = buildResponse h p := by
    rw [rxAll, ← hbuilt]
    exact rxBytes_eq_of_getD (hbuilt ▸ hbytes)
  have hlen' : rxLength s = 8 + p.length := hlen
  have hmin : 8 ≤ rxLength s := by omega
  have hchecked : frmDecChecked s = setCrc (checksum (h ++ p)) (setRxCrc (checksum (h ++ p)) s) := by
    rw [frmDecChecked, hrx, responseBody_buildResponse, responseTrailer_buildResponse, BitVec.ofNat_toNat, BitVec.setWidth_eq]
  have hpayload : (BitVec.ofNat 16 (rxLength s - 8)).toNat = p.length := by
    have hlt : rxLength s < 2 ^ 16 := s.rxlen.isLt
    rw [BitVec.toNat_ofNat]
    omega
  refine ⟨_, exec_frmDec_of_match hfits hmin (hrx ▸ checksum_eq_trailer_buildResponse p), ?_⟩
  rw [frmDecUnpacked, hchecked, hrx, responseValue_buildResponse p hh]
  exact ⟨rfl, hpayload, rfl, rfl, rfl, rfl⟩

end Sys2Proof.Proofs
end

section
/-! The float unit (spec/42_float.md): FLT_DEC case by case, its result read off the operand registers, what the result
registers hold, and the values binary64 holds exactly. -/

namespace Sys2Proof.Proofs

open Sys2Proof Sys2Proof.Machine

/-! ### FLT_DEC case by case (R501, R502, R510) -/

/-- FLT_DEC's state when spec and input pass: the result registers written, STATUS OK (R510). -/
def fltDecDone (s : State) : State :=
  finish 0x20 (setFloat (fltDecResult s).cls (fltDecResult s).sign (BitVec.ofNat 64 (fltDecResult s).sig)
    (BitVec.ofInt 64 (fltDecResult s).q) (f64View (fltDecResult s)) s)

section
variable {s : State}

theorem exec_fltDec_of_invalid (hv : ¬ floatSpecValid (floatSpec s) = true) :
    exec .fltDec s = .next (raiseError 0x20 .invalidSpec s) :=
  if_pos (Bool.eq_false_of_not_eq_true hv)

theorem exec_fltDec_of_above (hv : floatSpecValid (floatSpec s) = true)
    (hn : 2 ^ floatWidth (floatSpec s) ≤ floatInput s) :
    exec .fltDec s = .next (raiseError 0x20 .valueOutOfRange s) :=
  (if_neg (ne_false_of_eq_true hv)).trans (if_pos hn)

theorem exec_fltDec_of_fits (hv : floatSpecValid (floatSpec s) = true)
    (hn : floatInput s < 2 ^ floatWidth (floatSpec s)) : exec .fltDec s = .next (fltDecDone s) :=
  (if_neg (ne_false_of_eq_true hv)).trans (if_neg hn.not_ge)

/-- SB counts one sign bit exactly when the byte is 1. -/
theorem fltSb_toNat_eq_one_iff : s.fltSb.toNat = 1 ↔ s.fltSb = 1 :=
  BitVec.toNat_inj (y := 1)

/-- The spec in FLT_SPEC is valid as the registers say it (R501). -/
theorem floatSpecValid_floatSpec_iff :
    floatSpecValid (floatSpec s) = true ↔ s.fltSb = 1 ∧ floatWidth (floatSpec s) ≤ 64 :=
  floatSpecValid_iff.trans (and_congr_left' fltSb_toNat_eq_one_iff)

/-- With one sign bit, W is 1 + EB + MB (R500). -/
theorem floatWidth_floatSpec (hsb : s.fltSb = 1) : floatWidth (floatSpec s) = 1 + s.fltEb.toNat + s.fltMb.toNat := by
  rw [floatWidth, floatSpec, fltSb_toNat_eq_one_iff.2 hsb]

/-- At W = 64 every input passes (R502). -/
theorem fltIn_lt_of_width_64 {w : Nat} (hw : w = 64) : s.fltIn.toNat < 2 ^ w :=
  hw ▸ s.fltIn.isLt

/-- A valid spec and an input below 2^W, as the registers say it, are decoded. -/
theorem exec_fltDec_of_registers (hsb : s.fltSb = 1) (hw : 1 + s.fltEb.toNat + s.fltMb.toNat ≤ 64)
    (hn : s.fltIn.toNat < 2 ^ (1 + s.fltEb.toNat + s.fltMb.toNat)) :
    floatSpecValid (floatSpec s) = true ∧ exec .fltDec s = .next (fltDecDone s) := by
  rw [← floatWidth_floatSpec hsb] at hw hn
  have hv := floatSpecValid_floatSpec_iff.2 ⟨hsb, hw⟩
  exact ⟨hv, exec_fltDec_of_fits hv hn⟩

/-! ### The result from the registers (R503 to R508) -/

/-- The fields of the input in FLT_IN (R503). -/
theorem floatFields_registers (hsb : s.fltSb = 1) :
    floatFields (floatSpec s) (floatInput s) =
      { sign := s.fltIn.toNat.testBit (s.fltEb.toNat + s.fltMb.toNat)
        ef := s.fltIn.toNat / 2 ^ s.fltMb.toNat % 2 ^ s.fltEb.toNat
        mf := s.fltIn.toNat % 2 ^ s.fltMb.toNat } := by
  rw [floatFields, floatWidth_floatSpec hsb, Nat.shiftRight_eq_div_pow, Nat.add_assoc, Nat.add_sub_cancel_left]
  rfl

/-- An all-ones exponent field (R505). -/
theorem fltDecResult_special (hsb : s.fltSb = 1)
    (hef : s.fltIn.toNat / 2 ^ s.fltMb.toNat % 2 ^ s.fltEb.toNat = 2 ^ s.fltEb.toNat - 1) :
    fltDecResult s =
      { cls := if s.fltIn.toNat % 2 ^ s.fltMb.toNat = 2 ^ s.fltMb.toNat - 1 then .nan else .infinity
        sign := s.fltIn.toNat.testBit (s.fltEb.toNat + s.fltMb.toNat), sig := 0, q := 0 } := by
  have hf := floatFields_registers hsb
  have hr := floatResult_special (sp := floatSpec s) (n := floatInput s) (by rw [hf]; exact hef)
  rwa [hf] at hr

/-- Any other exponent field (R506 to R508). -/
theorem fltDecResult_finite (hsb : s.fltSb = 1)
    (hef : s.fltIn.toNat / 2 ^ s.fltMb.toNat % 2 ^ s.fltEb.toNat ≠ 2 ^ s.fltEb.toNat - 1) :
    fltDecResult s =
      { cls := .finite
        sign := s.fltIn.toNat.testBit (s.fltEb.toNat + s.fltMb.toNat)
        sig := implicitTerm (s.fltIn.toNat / 2 ^ s.fltMb.toNat % 2 ^ s.fltEb.toNat) * 2 ^ s.fltMb.toNat +
          s.fltIn.toNat % 2 ^ s.fltMb.toNat
        q := (s.fltIn.toNat / 2 ^ s.fltMb.toNat % 2 ^ s.fltEb.toNat : Nat) - floatBias (floatSpec s) - s.fltMb.toNat } := by
  have hf := floatFields_registers hsb
  have hr := floatResult_finite (sp := floatSpec s) (n := floatInput s) (by rw [hf]; exact hef)
  rwa [hf] at hr

/-- FLT_SIG holds SIG exactly (R118, R508). -/
theorem fltDecDone_fltSig_toNat (hv : floatSpecValid (floatSpec s) = true) :
    (fltDecDone s).fltSig.toNat = (fltDecResult s).sig := by
  have hlt : (fltDecResult s).sig < 2 ^ 63 := floatResult_sig_lt_of_valid hv (floatInput s)
  exact (BitVec.toNat_ofNat ..).trans (Nat.mod_eq_of_lt (hlt.trans (by norm_num)))

/-- FLT_EXP holds Q exactly, in two's complement (R119, R508). -/
theorem fltDecDone_fltExp_toInt (hv : floatSpecValid (floatSpec s) = true) :
    (fltDecDone s).fltExp.toInt = (fltDecResult s).q := by
  have hq : |(fltDecResult s).q| < 2 ^ 62 + 63 := floatResult_q_bounds hv (floatInput s)
  obtain ⟨hlo, hhi⟩ := abs_lt.1 hq
  exact (BitVec.toInt_ofInt ..).trans (Int.bmod_eq_of_le (by omega) (by omega))

end

/-- Settles O35: SB and W decide the spec, and then W the input. -/
theorem fltDecRejectsBadSpecThenBadInput : Obligations.FltDecRejectsBadSpecThenBadInput := by
  intro s w
  refine ⟨fun hbad => ?_, fun hsb hw hn => ?_, fun hsb hok => ?_⟩
  · have hv : ¬ floatSpecValid (floatSpec s) = true := by
      rw [floatSpecValid_floatSpec_iff, not_and_or, Nat.not_le]
      exact hbad
    exact exec_fltDec_of_invalid hv
  · exact exec_fltDec_of_above (floatSpecValid_floatSpec_iff.2 ⟨hsb, hw⟩) hn
  · have hfits : w ≤ 64 ∧ s.fltIn.toNat < 2 ^ w :=
      hok.elim id fun hw => ⟨hw.le, fltIn_lt_of_width_64 hw⟩
    exact ⟨_, exec_fltDec_of_fits (floatSpecValid_floatSpec_iff.2 ⟨hsb, hfits.1⟩) hfits.2, rfl, rfl⟩

/-- The patterns of the two Infinities (R509). -/
theorem f64View_infinity (sign : Bool) :
    f64View { cls := .infinity, sign := sign, sig := 0, q := 0 } =
      if sign then 0xFFF0000000000000 else 0x7FF0000000000000 := by
  cases sign <;> decide

/-- Settles O36: the special result, and the patterns of its binary64 view. -/
theorem fltDecSpecialValues : Obligations.FltDecSpecialValues := by
  intro s eb mb n sign nan hsb hw hn hef
  rw [(exec_fltDec_of_registers hsb hw hn).2, fltDecDone, fltDecResult_special hsb hef]
  by_cases hnan : n % 2 ^ mb = 2 ^ mb - 1
  · rw [if_pos hnan, if_pos hnan]
    rfl
  · rw [if_neg hnan, if_neg hnan, f64View_infinity]
    rfl

/-- Settles O37: the finite result. -/
theorem fltDecFiniteValues : Obligations.FltDecFiniteValues := by
  intro s eb mb n sign ef mf sig q hsb hw hn hef
  rw [(exec_fltDec_of_registers hsb hw hn).2, fltDecDone, fltDecResult_finite hsb hef]
  rfl

/-- The value of a significand with `m` fraction bits is the source's formula (R508). -/
theorem exactValue_of_fraction (sign : Bool) (i f m : Nat) (e : Int) :
    exactValue sign (i * 2 ^ m + f) (e - m) = (if sign then -1 else 1) * (2 : ℚ) ^ e * (i + f / 2 ^ m) := by
  rw [exactValue, zpow_sub₀ two_ne_zero, zpow_natCast]
  push_cast
  field_simp

/-- Settles O38: the registers hold the finite result exactly, and its bounds are those of the decoder. -/
theorem finiteResultIsTheExactValue : Obligations.FiniteResultIsTheExactValue := by
  intro s eb mb n ef mf hsb hw hn hef
  obtain ⟨hv, hexec⟩ := exec_fltDec_of_registers hsb hw hn
  have hr := fltDecResult_finite hsb hef
  have hsig := fltDecDone_fltSig_toNat hv
  have hq := fltDecDone_fltExp_toInt hv
  have hsigLt : (fltDecResult s).sig < 2 ^ (mb + 1) := floatResult_sig_lt (floatSpec s) (floatInput s)
  have heb : 1 ≤ eb :=
    exponentBits_pos_of_finite (sp := floatSpec s) (n := floatInput s) (by rw [floatFields_registers hsb]; exact hef)
  have hsign : (fltDecDone s).fltSign = n.testBit (eb + mb) := congrArg FloatResult.sign hr
  refine ⟨fltDecDone s, hexec, congrArg FloatResult.cls hr, hsign, hsig.trans (congrArg FloatResult.sig hr),
    hq.trans (congrArg FloatResult.q hr), ?_, hsig.trans_lt hsigLt, heb, by omega, ?_⟩
  · rw [hsign, hsig, hq, hr]
    refine (exactValue_of_fraction ..).trans ?_
    rw [implicitTerm, Nat.cast_ite, Nat.cast_zero, Nat.cast_one]
    rfl
  · rw [hq]
    exact floatResult_q_bounds hv (floatInput s)

/-! ### Values binary64 holds exactly (R509) -/

/-- A 53-bit significand at an exponent from the least subnormal's to the last binade's is not rounded: it is itself one of the
values no rounding is farther than. -/
theorem round64_exact (sign : Bool) {sig : Nat} {q : Int} (hsig : sig < 2 ^ 53) (hlo : -1074 ≤ q) (hhi : q ≤ 971) :
    f64Finite (round64 sign sig q) ∧ f64Value (round64 sign sig q) = exactValue sign sig q := by
  have hmag : f64Magnitude sig q ≠ f64InfBits := by
    rw [Ne, f64Magnitude_eq_infBits_iff, not_le]
    have hle : (sig : ℚ) ≤ 2 ^ 53 - 1 := le_sub_iff_add_le.2 (by exact_mod_cast hsig)
    calc (sig : ℚ) * 2 ^ q ≤ (2 ^ 53 - 1) * ulp 2045 :=
          mul_le_mul hle (zpow_le_zpow_right₀ one_le_two hhi) (by positivity) (by norm_num)
      _ < 2 ^ 1024 - 2 ^ 970 := by
          rw [overflow_bound_eq]
          linarith [ulp_pos 2045]
  refine ⟨not_not.1 fun h => hmag ((round64_parts sign sig q).2.1 h), ?_⟩
  obtain ⟨k, m, hkm, hr⟩ := (f64Magnitude_rounds sig q).resolve_left fun h => hmag h.2
  have hexact : (sig : ℚ) * 2 ^ q = m * ulp k := by
    have hnear := (hr.nearest (z := sig) hlo (by rw [Nat.abs_cast]; exact_mod_cast hsig)).1
    rw [Int.cast_natCast, sub_self, abs_zero] at hnear
    exact sub_eq_zero.1 (abs_nonpos_iff.1 hnear)
  rw [round64, hkm, f64Value_build sign hr.exp_le hr.sig_le hr.sig_normal, exactValue, exactValue, mul_assoc, mul_assoc, hexact,
    ulp]

/-- Settles O40: a result of the default spec has 24 bits and an exponent from -150 to 104. -/
theorem defaultSpecNeedsNoRounding : Obligations.DefaultSpecNeedsNoRounding := by
  intro s hsb heb hmb hn hef
  have hebNat : s.fltEb.toNat = 8 := by rw [heb]; rfl
  have hmbNat : s.fltMb.toNat = 23 := by rw [hmb]; rfl
  obtain ⟨hv, hexec⟩ := exec_fltDec_of_registers hsb (by rw [hebNat, hmbNat]; norm_num) (by rw [hebNat, hmbNat]; exact hn)
  have hr := fltDecResult_finite hsb (by rw [hebNat, hmbNat]; exact hef)
  have hsigLt : (fltDecResult s).sig < 2 ^ (s.fltMb.toNat + 1) := floatResult_sig_lt (floatSpec s) (floatInput s)
  have hq : (fltDecResult s).q = (s.fltIn.toNat / 2 ^ 23 % 2 ^ 8 : Nat) - 127 - 23 := by
    rw [hr, floatBias, floatSpec, hebNat, hmbNat]
    rfl
  have hcls : (fltDecResult s).cls = .finite := congrArg FloatResult.cls hr
  have hf64 : (fltDecDone s).fltF64 = round64 (fltDecResult s).sign (fltDecResult s).sig (fltDecResult s).q := by
    rw [fltDecDone, finish_fltF64, setFloat_fltF64, f64View, hcls]
  refine ⟨fltDecDone s, hexec, hcls, ?_⟩
  rw [hf64, fltDecDone_fltSig_toNat hv, fltDecDone_fltExp_toInt hv]
  rw [hmbNat] at hsigLt
  exact round64_exact _ (by omega) (by omega) (by omega)

/-! ### Degenerate layouts (R511) -/

/-- The class by the two all-ones tests (R505). -/
theorem floatResult_cls (sp : FloatSpec) (n : Nat) :
    (floatResult sp n).cls =
      if (floatFields sp n).ef = 2 ^ sp.exponentBits - 1 then
        if (floatFields sp n).mf = 2 ^ sp.mantissaBits - 1 then .nan else .infinity
      else .finite := by
  by_cases hef : (floatFields sp n).ef = 2 ^ sp.exponentBits - 1
  · rw [floatResult_special hef, if_pos hef]
  · rw [floatResult_finite hef, if_neg hef]

theorem floatResult_cls_ne_none (sp : FloatSpec) (n : Nat) : (floatResult sp n).cls ≠ .none := by
  rw [floatResult_cls]
  split_ifs <;> nofun

/-- With no exponent bit the empty exponent field is all ones. -/
theorem floatResult_cls_ne_finite {sp : FloatSpec} (h0 : sp.exponentBits = 0) (n : Nat) :
    (floatResult sp n).cls ≠ .finite := by
  have hef : (floatFields sp n).ef = 2 ^ sp.exponentBits - 1 := by
    by_contra hne
    exact Nat.one_le_iff_ne_zero.1 (exponentBits_pos_of_finite hne) h0
  rw [floatResult_cls, if_pos hef]
  split_ifs <;> nofun

/-- With no mantissa bit the empty mantissa field is all ones. -/
theorem floatResult_cls_ne_infinity {sp : FloatSpec} (h0 : sp.mantissaBits = 0) (n : Nat) :
    (floatResult sp n).cls ≠ .infinity := by
  have hmf : (floatFields sp n).mf = 2 ^ sp.mantissaBits - 1 := by
    have hlt := floatFields_mf_lt sp n
    rw [h0] at hlt ⊢
    omega
  rw [floatResult_cls, if_pos hmf]
  split_ifs <;> nofun

/-- Settles O41: the class of the decoder's result, for an input that passes. -/
theorem degenerateLayouts : Obligations.DegenerateLayouts := by
  intro s hsb hw hn
  obtain ⟨-, hexec⟩ := exec_fltDec_of_registers hsb hw (hn.elim id fltIn_lt_of_width_64)
  refine ⟨fltDecDone s, hexec, rfl, floatResult_cls_ne_none _ _, fun heb => ?_, fun hmb => ?_⟩
  · exact floatResult_cls_ne_finite (congrArg BitVec.toNat heb) _
  · exact floatResult_cls_ne_infinity (congrArg BitVec.toNat hmb) _

end Sys2Proof.Proofs
end

section
/-! The error rule (spec/60_exceptions.md): which errors each command can raise, how a command ends, and that what earlier
commands left in STATUS and ERRACC changes no later one. -/

namespace Sys2Proof.Proofs

open Sys2Proof Sys2Proof.Machine

/-! ### How a command ends (R601, R602, R605) -/

/-- The errors a command can raise, in the order it tries them (R602, R604). -/
def commandErrors : Instr → List BlockError
  | .nop | .cksInit | .cksByte | .frmEnc => []
  | .cksBuf => [.lengthOutOfRange]
  | .frmDec => [.lengthOutOfRange, .frameTooShort, .checksumMismatch]
  | .fltDec => [.invalidSpec, .valueOutOfRange]

/-- How a command of opcode `opcode i` can get from `s` to `t`: OK with whatever it wrote besides STATUS and ERRACC, by an
error before any write, or by FRM_DEC's CHECKSUM_MISMATCH after RX_CRC and CRC. -/
inductive CommandEnd (i : Instr) (s t : State) : Prop where
  | ok (u : State) (ht : t = finish (opcode i) u) (hacc : u.erracc = s.erracc)
  | error (e : BlockError) (he : e ∈ commandErrors i) (ht : t = raiseError (opcode i) e s)
  | mismatch (hi : i = .frmDec) (ht : t = raiseError (opcode i) .checksumMismatch (frmDecChecked s))

theorem exec_ends {i : Instr} {s t : State} (h : exec i s = .next t) : CommandEnd i s t := by
  cases i
  case nop | cksInit | cksByte | frmEnc => cases h; exact .ok _ rfl rfl
  case cksBuf =>
    rcases exec_cksBuf_cases h with ⟨-, ht⟩ | ⟨-, ht⟩
    · exact .error _ (by decide) ht
    · exact .ok _ ht rfl
  case frmDec =>
    rcases exec_frmDec_cases h with ⟨-, ht⟩ | ⟨-, -, ht⟩ | ⟨-, -, -, ht⟩ | ⟨-, -, -, ht⟩
    · exact .error _ (by decide) ht
    · exact .error _ (by decide) ht
    · exact .mismatch rfl ht
    · exact .ok _ ht rfl
  case fltDec =>
    rcases exec_fltDec_cases h with ⟨-, ht⟩ | ⟨-, -, ht⟩ | ⟨-, -, ht⟩
    · exact .error _ (by decide) ht
    · exact .error _ (by decide) ht
    · exact .ok _ ht rfl

/-- What `raiseError` writes in ERRACC, by the code of the error (R105). -/
theorem raiseError_erracc_eq (op : Byte) (e : BlockError) (s : State) :
    (raiseError op e s).erracc = s.erracc ||| BitVec.ofNat 7 (2 ^ (errCode e).toNat) :=
  congrArg (s.erracc ||| ·) (errBit_eq e)

/-- Settles O42: each of the three ends follows the rule. -/
theorem commandsEndByTheErrorRule : Obligations.CommandsEndByTheErrorRule := by
  intro i s
  obtain ⟨t, h⟩ := exec_answers i s
  refine ⟨t, h, ?_⟩
  cases exec_ends h with
  | ok u ht hacc => subst ht; exact ⟨rfl, .inl ⟨rfl, hacc⟩⟩
  | error e _ ht =>
    subst ht
    exact ⟨rfl, .inr ⟨e, rfl, errCode_ne_zero e, raiseError_erracc_eq _ e s, rfl, fun _ => ⟨rfl, rfl⟩⟩⟩
  | mismatch hi ht =>
    subst ht
    exact ⟨rfl, .inr ⟨.checksumMismatch, rfl, errCode_ne_zero _, raiseError_erracc_eq _ _ (frmDecChecked s), rfl,
      fun hne => (hne.elim (· hi) (· rfl)).elim⟩⟩

/-- A command that can raise no error ends OK. -/
theorem exec_ok_of_commandErrors_nil {i : Instr} {s t : State} (hi : commandErrors i = []) (h : exec i s = .next t) :
    t.statusErr = 0 ∧ t.erracc = s.erracc := by
  cases exec_ends h with
  | ok u ht hacc => subst ht; exact ⟨rfl, hacc⟩
  | error e he _ => rw [hi] at he; cases he
  | mismatch hdec _ => subst hdec; cases hi

/-- Settles O43: none of the four can raise an error. -/
theorem commandsThatNeverFail : Obligations.CommandsThatNeverFail := by
  intro i s hi
  obtain ⟨t, h⟩ := exec_answers i s
  have hnil : commandErrors i = [] := by rcases hi with rfl | rfl | rfl | rfl <;> rfl
  exact ⟨t, h, exec_ok_of_commandErrors_nil hnil h⟩

/-! ### What STATUS and ERRACC held before (R125, R609) -/

/-- No condition a command tests and no value it writes reads STATUS. -/
theorem exec_withStatus (i : Instr) (s : State) (e : BitVec 4) (l : Byte) :
    exec i { s with statusErr := e, statusLastop := l } = exec i s := by
  cases i <;> rfl

/-- The state with another ERRACC. -/
def withErracc (acc : BitVec 7) (s : State) : State := { s with erracc := acc }

/-- From `s` with any ERRACC, command `i` gives `t` with that ERRACC and one fixed set of bits added. -/
def AddsErraccBits (i : Instr) (s t : State) : Prop :=
  ∃ m, ∀ acc, exec i (withErracc acc s) = .next (withErracc (acc ||| m) t)

/-- A command that keeps whatever ERRACC holds adds no bit to it. -/
theorem addsErraccBits_of_keeps {i : Instr} {s t : State}
    (h : ∀ acc, exec i (withErracc acc s) = .next (withErracc acc t)) : AddsErraccBits i s t :=
  ⟨0#7, fun acc => by rw [BitVec.or_zero, h]⟩

/-- A command that ends in error `e` whatever ERRACC holds adds the bit of `e` to it. -/
theorem addsErraccBits_of_raises {i : Instr} {s u : State} {op : Byte} {e : BlockError}
    (h : ∀ acc, exec i (withErracc acc s) = .next (raiseError op e (withErracc acc u))) :
    AddsErraccBits i s (raiseError op e u) :=
  ⟨errBit e, h⟩

theorem exec_cksBuf_of_long {s : State} (hlong : s.params.bufBytes < rxLength s) :
    exec .cksBuf s = .next (raiseError 0x03 .lengthOutOfRange s) :=
  if_pos hlong

theorem exec_cksBuf_of_fits {s : State} (hfits : rxLength s ≤ s.params.bufBytes) :
    exec .cksBuf s = .next (finish 0x03 (setCrc (checksum (rxAll s)) s)) :=
  if_neg hfits.not_gt

/-- Every command makes the same checks and the same writes whatever ERRACC holds. -/
theorem exec_addsErraccBits {i : Instr} {s t : State} (h : exec i s = .next t) : AddsErraccBits i s t := by
  cases i
  case nop | cksInit | cksByte | frmEnc => cases h; exact addsErraccBits_of_keeps fun _ => rfl
  case cksBuf =>
    rcases exec_cksBuf_cases h with ⟨hlong, rfl⟩ | ⟨hfits, rfl⟩
    · exact addsErraccBits_of_raises fun acc => exec_cksBuf_of_long (s := withErracc acc s) hlong
    · exact addsErraccBits_of_keeps fun acc => exec_cksBuf_of_fits (s := withErracc acc s) hfits
  case frmDec =>
    rcases exec_frmDec_cases h with ⟨hlong, rfl⟩ | ⟨hfits, hshort, rfl⟩ | ⟨hfits, hmin, hsum, rfl⟩ | ⟨hfits, hmin, hsum, rfl⟩
    · exact addsErraccBits_of_raises fun acc => exec_frmDec_of_long (s := withErracc acc s) hlong
    · exact addsErraccBits_of_raises fun acc => exec_frmDec_of_short (s := withErracc acc s) hfits hshort
    · exact addsErraccBits_of_raises (u := frmDecChecked s) fun acc =>
        exec_frmDec_of_mismatch (s := withErracc acc s) hfits hmin hsum
    · exact addsErraccBits_of_keeps fun acc => exec_frmDec_of_match (s := withErracc acc s) hfits hmin hsum
  case fltDec =>
    rcases exec_fltDec_cases h with ⟨hv, rfl⟩ | ⟨hv, hn, rfl⟩ | ⟨hv, hn, rfl⟩
    · exact addsErraccBits_of_raises fun acc =>
        exec_fltDec_of_invalid (s := withErracc acc s) (Bool.not_eq_true _ ▸ hv)
    · exact addsErraccBits_of_raises fun acc => exec_fltDec_of_above (s := withErracc acc s) hv hn
    · exact addsErraccBits_of_keeps fun acc => exec_fltDec_of_fits (s := withErracc acc s) hv hn

/-- Settles O44: STATUS is read by no command, and ERRACC only added to. -/
theorem earlierErrorsChangeNoCommand : Obligations.EarlierErrorsChangeNoCommand := by
  intro i s
  obtain ⟨t, h⟩ := exec_answers i s
  obtain ⟨m, hm⟩ := exec_addsErraccBits h
  exact ⟨exec_withStatus i s, t, m, hm⟩

end Sys2Proof.Proofs
end

section
/-! The invariant of the block: each named update of State keeps it under that update's own condition, each command is made
of such updates, and so every step keeps it. -/

namespace Sys2Proof.Proofs

open Sys2Proof Sys2Proof.Machine

/-! ### The clauses a command establishes -/

/-- An error a command can raise stands under that command's opcode (R601). -/
theorem statusInv_raiseError {i : Instr} {e : BlockError} (he : e ∈ commandErrors i) (s : State) :
    StatusInv (raiseError (opcode i) e s) := by
  cases i
  case nop | cksInit | cksByte | frmEnc => cases he
  case cksBuf =>
    obtain rfl := List.mem_singleton.1 he
    exact .inr (.inr (.inr (.inr ⟨rfl, .inl rfl⟩)))
  case frmDec =>
    simp only [commandErrors, List.mem_cons, List.not_mem_nil, or_false] at he
    rcases he with rfl | rfl | rfl
    · exact .inr (.inr (.inr (.inr ⟨rfl, .inr rfl⟩)))
    · exact .inr (.inl ⟨.inl rfl, rfl⟩)
    · exact .inr (.inl ⟨.inr rfl, rfl⟩)
  case fltDec =>
    simp only [commandErrors, List.mem_cons, List.not_mem_nil, or_false] at he
    rcases he with rfl | rfl
    · exact .inr (.inr (.inl ⟨.inr rfl, rfl⟩))
    · exact .inr (.inr (.inl ⟨.inl rfl, rfl⟩))

/-- The value of a response's payload is below 256 to its length (R457). -/
theorem responseValue_rxAll_lt (s : State) : responseValue (rxAll s) < 256 ^ (rxLength s - 8) := by
  rw [responseValue_rxBytes]
  have hbound := beValue_bound ((List.range (rxLength s - 8)).map fun k => rxByte s (6 + k))
  rwa [List.length_map, List.length_range] at hbound

/-- FRM_DEC unpacks a payload that fits the buffer (R112, R457). -/
theorem payloadInv_frmDecUnpacked {s : State} (hfits : rxLength s ≤ s.params.bufBytes) (hmin : 8 ≤ rxLength s) :
    PayloadInv (frmDecUnpacked s) := by
  have hlt : rxLength s < 2 ^ 16 := s.rxlen.isLt
  have hlen : (frmDecUnpacked s).payloadLen.toNat = rxLength s - 8 :=
    (BitVec.toNat_ofNat ..).trans (Nat.mod_eq_of_lt (by omega))
  have hraw : (frmDecUnpacked s).raw.toNat ≤ responseValue (rxAll s) :=
    (BitVec.toNat_ofNat ..).trans_le (Nat.mod_le _ _)
  refine ⟨?_, ?_⟩
  · rw [hlen, Nat.sub_add_cancel hmin]
    exact hfits
  · rw [hlen]
    exact hraw.trans_lt (responseValue_rxAll_lt s)

/-- A result that is not finite has SIG and Q 0 (R505). -/
theorem floatResult_sig_q_of_not_finite {sp : FloatSpec} {n : Nat} (h : (floatResult sp n).cls ≠ .finite) :
    (floatResult sp n).sig = 0 ∧ (floatResult sp n).q = 0 := by
  by_cases hef : (floatFields sp n).ef = 2 ^ sp.exponentBits - 1
  · rw [floatResult_special hef]
    exact ⟨rfl, rfl⟩
  · rw [floatResult_finite hef] at h
    exact absurd rfl h

/-- FLT_DEC of a valid spec writes results that agree: SIG and Q fit their registers, so the registers give the result that
FLT_F64 is the view of (R508, R509). -/
theorem floatInv_fltDecDone {s : State} (hv : floatSpecValid (floatSpec s) = true) : FloatInv (fltDecDone s) := by
  refine ⟨?_, ?_, fun hcls => ?_, fun hcls => absurd hcls (floatResult_cls_ne_none _ _)⟩
  · rw [fltDecDone_fltSig_toNat hv, fltDecDone_fltExp_toInt hv]
    rfl
  · rw [fltDecDone_fltSig_toNat hv]
    exact floatResult_sig_lt_of_valid hv (floatInput s)
  · obtain ⟨hsig, hq⟩ := floatResult_sig_q_of_not_finite hcls
    exact ⟨congrArg (BitVec.ofNat 64) hsig, congrArg (BitVec.ofInt 64) hq⟩

/-! ### What each update keeps -/

section
variable {s : State} (h : BlockInv s)
include h

theorem blockInv_setPending (es : List Event) : BlockInv (setPending es s) := { h with }

theorem blockInv_pushReturned (w : Word) : BlockInv (pushReturned w s) := { h with }

theorem blockInv_setCrc (v : Half) : BlockInv (setCrc v s) := { h with }

theorem blockInv_setRxCrc (v : Half) : BlockInv (setRxCrc v s) := { h with }

theorem blockInv_frmDecChecked : BlockInv (frmDecChecked s) := blockInv_setCrc (blockInv_setRxCrc h _) _

theorem blockInv_setRxByte {i : Nat} (hi : i < s.params.bufBytes) (b : Byte) : BlockInv (setRxByte i b s) :=
  { h with rxbuf := wf_put b h.rxbuf hi }

theorem blockInv_finish (i : Instr) : BlockInv (finish (opcode i) s) :=
  { h with status := .inl ⟨rfl, i, rfl⟩ }

/-- No error sets ERRACC bit 0 (R105). -/
theorem blockInv_raiseError {op : Byte} {e : BlockError} (hs : StatusInv (raiseError op e s)) :
    BlockInv (raiseError op e s) :=
  { h with
    status := hs
    erracc := by rw [raiseError_erracc, erraccSet, BitVec.getLsbD_or, h.erracc, errBit_getLsbD_zero]; rfl }

theorem blockInv_execIllegal (w : Word) : BlockInv (execIllegal w s) :=
  blockInv_raiseError h (.inr (.inr (.inr (.inl rfl))))

theorem blockInv_setFrame (c : Byte) (id : Word) : BlockInv (setFrame (frameVector (encodeFrame c id)) s) :=
  { h with transmit := .inr ⟨rfl, c, id, frameVector_toList (encodeFrame_length c id)⟩ }

theorem blockInv_setPayload {n : Half} {v : DWord} (hp : PayloadInv (setPayload n v s)) : BlockInv (setPayload n v s) :=
  { h with payload := hp }

theorem blockInv_setFloat {c : FltClass} {g : Bool} {m x d : DWord} (hf : FloatInv (setFloat c g m x d s)) :
    BlockInv (setFloat c g m x d s) :=
  { h with float := hf }

/-- A host write reaches one register the invariant speaks of, ERRACC, and sets no bit of it (R105, R202). -/
theorem blockInv_writeReg (w : Word) (r : Reg) : BlockInv (writeReg w s r) := by
  cases r
  case erracc =>
    have hacc : (erraccClear s.erracc w).getLsbD 0 = false := by rw [erraccClear_getLsbD, h.erracc]; rfl
    exact { h with erracc := hacc }
  all_goals exact { h with }

end

/-- A reset needs of the invariant only that the parameters are legal (R700). -/
theorem blockInv_assertReset {s : State} (hp : s.params.wf = true) : BlockInv (assertReset s) where
  params := hp
  rxbuf := reset_rxbuf_wf s.params.bufBytes
  status := .inl ⟨rfl, .nop, rfl⟩
  erracc := BitVec.getLsbD_zero
  transmit := .inl ⟨rfl, rfl⟩
  payload := by
    simp only [Params.wf, Bool.and_eq_true, decide_eq_true_eq] at hp
    obtain ⟨⟨-, hmin⟩, -⟩ := hp
    exact ⟨(Nat.zero_add 8).trans_le hmin, Nat.one_pos⟩
  float := ⟨rfl, Nat.two_pow_pos 63, fun _ => ⟨rfl, rfl⟩, fun _ => rfl⟩

/-! ### Commands and steps -/

/-- Every command keeps the invariant: each is made of updates that do. -/
theorem exec_keeps_blockInv {i : Instr} {s t : State} (h : BlockInv s) (hexec : exec i s = .next t) : BlockInv t := by
  have herror {i : Instr} {e : BlockError} {u : State} (hu : BlockInv u) (he : e ∈ commandErrors i) :
      BlockInv (raiseError (opcode i) e u) := blockInv_raiseError hu (statusInv_raiseError he u)
  cases i
  case nop => cases hexec; exact blockInv_finish h .nop
  case cksInit => cases hexec; exact blockInv_finish (blockInv_setCrc h _) .cksInit
  case cksByte => cases hexec; exact blockInv_finish (blockInv_setCrc h _) .cksByte
  case cksBuf =>
    rcases exec_cksBuf_cases hexec with ⟨-, rfl⟩ | ⟨-, rfl⟩
    · exact herror (i := .cksBuf) h (by decide)
    · exact blockInv_finish (blockInv_setCrc h _) .cksBuf
  case frmEnc => cases hexec; exact blockInv_finish (blockInv_setCrc (blockInv_setFrame h _ _) _) .frmEnc
  case frmDec =>
    rcases exec_frmDec_cases hexec with ⟨-, rfl⟩ | ⟨-, -, rfl⟩ | ⟨-, -, -, rfl⟩ | ⟨hfits, hmin, -, rfl⟩
    · exact herror (i := .frmDec) h (by decide)
    · exact herror (i := .frmDec) h (by decide)
    · exact herror (i := .frmDec) (blockInv_frmDecChecked h) (by decide)
    · have hpayload := payloadInv_frmDecUnpacked hfits hmin
      exact blockInv_finish (blockInv_setPayload (blockInv_frmDecChecked h) hpayload) .frmDec
  case fltDec =>
    rcases exec_fltDec_cases hexec with ⟨-, rfl⟩ | ⟨-, -, rfl⟩ | ⟨hv, -, rfl⟩
    · exact herror (i := .fltDec) h (by decide)
    · exact herror (i := .fltDec) h (by decide)
    · exact blockInv_finish (blockInv_setFloat h (floatInv_fltDecDone hv)) .fltDec

/-- Settles O54: every case of a step is an update, a reset or a command, after its event is taken. -/
theorem everyStepKeepsBlockInv : Obligations.EveryStepKeepsBlockInv := by
  intro s t h hstep
  have htaken := blockInv_setPending h
  cases step_cases hstep with
  | idle _ ht => exact ht ▸ h
  | reset es _ ht => exact ht ▸ blockInv_assertReset h.params
  | read l es _ ht => exact ht ▸ blockInv_pushReturned (htaken es) _
  | writeReg r w es _ _ ht => exact ht ▸ blockInv_writeReg (htaken es) w r
  | writeRx i w es hi _ ht => exact ht ▸ blockInv_setRxByte (htaken es) hi _
  | ignored es _ _ ht => exact ht ▸ htaken es
  | command w i es _ _ hexec => exact exec_keeps_blockInv (htaken es) hexec
  | illegal w _ es _ _ ht => exact ht ▸ blockInv_execIllegal (htaken es) w

end Sys2Proof.Proofs
end

section
/-! The reset input (spec/70_reset_and_hazards.md R700 to R702), and what of the block persists between commands (R706). -/

namespace Sys2Proof.Proofs

open Sys2Proof Sys2Proof.Machine

/-! ### Reset (R700 to R702) -/

/-- The step of a coming reset. -/
theorem step_reset {s : State} {es : List Event} (h : s.pending = .reset :: es) :
    step s = .next (assertReset (setPending es s)) :=
  step_cons h

/-- After a reset every register but CFG, which reads a parameter, reads as in the reset state (R121, R700). -/
theorem readReg_assertReset (s : State) {r : Reg} (hr : r ≠ .cfg) : readReg (assertReset s) r = readReg State.reset r := by
  cases r
  case cfg => exact absurd rfl hr
  all_goals rfl

theorem readReg_reset {r : Reg} (hr : r ≠ .cfg) :
    readReg State.reset r =
      if r = .crc then 0x0000FFFF else if r = .fltSpec then 0x00170801 else if r = .fltRes then 0x00000003 else 0 := by
  cases r
  case cfg => exact absurd rfl hr
  all_goals decide

/-- Settles O15: a reset gives the reset state, with the parameters and the host's record as they were. -/
theorem resetEventRestoresTheRegisters : Obligations.ResetEventRestoresTheRegisters := by
  intro s es hp
  obtain ⟨-, htxbuf⟩ := resetStateReadsTheResetValues
  exact ⟨_, step_reset hp, fun r hr => (readReg_assertReset _ hr).trans (readReg_reset hr), rfl, htxbuf, rfl, rfl, rfl⟩

/-- An unwritten RXBUF byte is the draw of the last reset (R702). -/
theorem rxByte_of_get?_eq_none {s : State} {i : Nat} (h : Memory.get? s.rxbuf i = none) :
    rxByte s i = Config.rxDraw s.draws i := by
  rw [rxByte, h, Option.getD_none]

/-- Settles O16: RXBUF reads as `rxByte`, and a reset leaves the empty list. -/
theorem unwrittenRxbufBytesReadTheDraw : Obligations.UnwrittenRxbufBytesReadTheDraw := by
  refine ⟨fun s i h => congrArg zext32 (rxByte_of_get?_eq_none h), fun s t es hp hstep i => ?_⟩
  rw [step_reset hp] at hstep
  cases hstep
  rfl

/-- Settles O53: a reset gives a state of the invariant, and from the reset state it changes only the count of draws. -/
theorem blockInvHoldsAtReset : Obligations.BlockInvHoldsAtReset :=
  { blockInv_assertReset (s := State.reset) (by decide) with }

/-! ### What persists between commands (R706)

The result registers are read-only, so a host write to a register keeps each of them. -/

section
variable (w : Word) (s : State) (r : Reg)

@[simp] theorem writeReg_statusErr : (writeReg w s r).statusErr = s.statusErr := by cases r <;> rfl
@[simp] theorem writeReg_statusLastop : (writeReg w s r).statusLastop = s.statusLastop := by cases r <;> rfl
@[simp] theorem writeReg_payloadLen : (writeReg w s r).payloadLen = s.payloadLen := by cases r <;> rfl
@[simp] theorem writeReg_raw : (writeReg w s r).raw = s.raw := by cases r <;> rfl
@[simp] theorem writeReg_rxCrc : (writeReg w s r).rxCrc = s.rxCrc := by cases r <;> rfl
@[simp] theorem writeReg_fltClass : (writeReg w s r).fltClass = s.fltClass := by cases r <;> rfl
@[simp] theorem writeReg_fltSign : (writeReg w s r).fltSign = s.fltSign := by cases r <;> rfl
@[simp] theorem writeReg_fltSig : (writeReg w s r).fltSig = s.fltSig := by cases r <;> rfl
@[simp] theorem writeReg_fltExp : (writeReg w s r).fltExp = s.fltExp := by cases r <;> rfl
@[simp] theorem writeReg_fltF64 : (writeReg w s r).fltF64 = s.fltF64 := by cases r <;> rfl

end

/-- Settles O46: a command keeps the operands, and of the other steps none but a reset writes a result register. -/
theorem operandsPersistAndResultsStay : Obligations.OperandsPersistAndResultsStay := by
  refine ⟨fun i s t h => ?_, fun s t hstep hcmd hreset => ?_⟩
  · obtain ⟨-, hdin, hfrmCmd, hfrmRegid, hrxlen, hrxbuf, hsb, heb, hmb, hin, -⟩ := exec_keeps_operands h
    exact ⟨hdin, hfrmCmd, hfrmRegid, hrxlen, hsb, heb, hmb, hin, hrxbuf, exec_keeps_rxByte h⟩
  · cases step_cases hstep with
    | idle _ ht | read _ _ _ ht | writeReg _ _ _ _ _ ht | writeRx _ _ _ _ _ ht | ignored _ _ _ ht => simp [ht]
    | reset es hp _ => exact absurd hp (hreset es)
    | command w _ es hp _ _ | illegal w _ es hp _ _ => exact absurd hp (hcmd w es)

end Sys2Proof.Proofs
end
